-- ==== Sys2Proof/Word.lean ====
section
/-! DEFINITION. The word type of the LS-8 CORE: every register, memory cell, operand and immediate is a byte
(00_scope.md R6, R11). -/

namespace Sys2Proof

/-- A byte: an unsigned value in 0..255 (00_scope.md R11). -/
abbrev Byte := BitVec 8

end Sys2Proof
end

