-- ==== Sys2Proof/Config.lean ====
section
/-! DEFINITION. What one build of the LS-8 CORE fixes: the two named parameters of the spec, `OPCODE_MAP`
(00_scope.md R7) and `CMP_FLAG_UPDATE` (R8). Both are "configuration, fixed for the run"
(70_reset_and_hazards.md R181). They are plain data that the machine's state carries and no step changes, so a
statement about every state holds under every configuration. Their default values are in Sys2Proof/Decode.lean. -/

namespace Sys2Proof

/-- `CMP_FLAG_UPDATE` (00_scope.md R8): whether CMP leaves the two flags it does not set at their prior value, or
clears all three first. -/
inductive CmpFlagUpdate where
  | sticky
  | clearFirst
deriving DecidableEq, Repr

/-- `OPCODE_MAP` (00_scope.md R7), written from the mnemonic's side: the opcode byte of each of the thirteen
mnemonics. A byte that stands in no field is an unknown opcode (30_encoding.md R70). That no byte stands in two
fields is `OpcodeMap.wf`. -/
structure OpcodeMap where
  halt : Byte
  ldi  : Byte
  prn  : Byte
  add  : Byte
  mul  : Byte
  cmp  : Byte
  push : Byte
  pop  : Byte
  call : Byte
  ret  : Byte
  jmp  : Byte
  jeq  : Byte
  jne  : Byte
deriving DecidableEq, Repr

/-- The opcode bytes of a map, in the order of 30_encoding.md R67. -/
def OpcodeMap.bytes (m : OpcodeMap) : List Byte :=
  [m.halt, m.ldi, m.prn, m.add, m.mul, m.cmp, m.push, m.pop, m.call, m.ret, m.jmp, m.jeq, m.jne]

/-- The configuration of one machine (00_scope.md R7, R8). -/
structure Config where
  opcodeMap     : OpcodeMap
  cmpFlagUpdate : CmpFlagUpdate
deriving DecidableEq, Repr

end Sys2Proof
end

