-- ==== Sys2Proof/Syntax.lean ====
section
/-! DEFINITION. The instructions of the LS-8 CORE: the thirteen of the dispatch table (00_scope.md R2), each with
exactly the operand bytes it uses (30_encoding.md R61, R64). -/

namespace Sys2Proof

/-- The thirteen mnemonics (00_scope.md R2), in the order of 30_encoding.md R67. -/
inductive Mnemonic where
  | halt | ldi | prn | add | mul | cmp | push | pop | call | ret | jmp | jeq | jne
deriving DecidableEq, Repr

/-- Every mnemonic once, in the order of 30_encoding.md R67. -/
def Mnemonic.all : List Mnemonic :=
  [.halt, .ldi, .prn, .add, .mul, .cmp, .push, .pop, .call, .ret, .jmp, .jeq, .jne]

/-- An instruction. An operand is the whole byte, 0..255: a register index is not masked to three bits, and one of 8
or more is a legal encoding whose access raises (30_encoding.md R65, R66). -/
inductive Instr where
  /-- HALT (41_loop.md R106). -/
  | halt
  /-- LDI: register index `a`, immediate `b` (41_loop.md R107). -/
  | ldi (a b : Byte)
  /-- PRN: register index `a` (41_loop.md R108). -/
  | prn (a : Byte)
  /-- ADD: register indices `a` (destination) and `b` (40_alu.md R81). -/
  | add (a b : Byte)
  /-- MUL: register indices `a` (destination) and `b` (40_alu.md R82). -/
  | mul (a b : Byte)
  /-- CMP: register indices `a` and `b` (40_alu.md R83). -/
  | cmp (a b : Byte)
  /-- PUSH: register index `a` (42_stack.md R122). -/
  | push (a : Byte)
  /-- POP: register index `a` (42_stack.md R123). -/
  | pop (a : Byte)
  /-- CALL: index `a` of the register that holds the target (43_control.md R142). -/
  | call (a : Byte)
  /-- RET (43_control.md R143). -/
  | ret
  /-- JMP: index `a` of the register that holds the target (43_control.md R144). -/
  | jmp (a : Byte)
  /-- JEQ: index `a` of the register that holds the target (43_control.md R145). -/
  | jeq (a : Byte)
  /-- JNE: index `a` of the register that holds the target (43_control.md R146). -/
  | jne (a : Byte)
deriving DecidableEq, Repr

/-- The mnemonic of an instruction. -/
def Instr.mnemonic : Instr → Mnemonic
  | .halt    => .halt
  | .ldi _ _ => .ldi
  | .prn _   => .prn
  | .add _ _ => .add
  | .mul _ _ => .mul
  | .cmp _ _ => .cmp
  | .push _  => .push
  | .pop _   => .pop
  | .call _  => .call
  | .ret     => .ret
  | .jmp _   => .jmp
  | .jeq _   => .jeq
  | .jne _   => .jne

/-- The register-index operands of an instruction, in the order its pseudocode names them (30_encoding.md R64). LDI's
operand_b is an immediate and is not among them. -/
def Instr.registerOperands : Instr → List Byte
  | .halt    => []
  | .ldi a _ => [a]
  | .prn a   => [a]
  | .add a b => [a, b]
  | .mul a b => [a, b]
  | .cmp a b => [a, b]
  | .push a  => [a]
  | .pop a   => [a]
  | .call a  => [a]
  | .ret     => []
  | .jmp a   => [a]
  | .jeq a   => [a]
  | .jne a   => [a]

end Sys2Proof
end

