-- ==== Sys2Proof/WellFormed.lean ====
section
/-! DEFINITION. Well-formedness of an opcode map and of an instruction. Both are checks a program or a claim may ask
for; the decoder and the machine are total without them. -/

namespace Sys2Proof

/-- `OPCODE_MAP` "must be an injective partial map from the 256 byte values onto the thirteen mnemonics"
(00_scope.md R7): no byte is the opcode of two mnemonics. -/
def OpcodeMap.wf (m : OpcodeMap) : Bool :=
  decide m.bytes.Nodup

/-- A configuration is well formed when its opcode map is. -/
def Config.wf (c : Config) : Bool :=
  c.opcodeMap.wf

/-- "Every register operand it uses must be < 8" (70_reset_and_hazards.md R183). An instruction that fails this check
still encodes, decodes and runs (30_encoding.md R66). -/
def Instr.wf (i : Instr) : Bool :=
  i.registerOperands.all fun r => decide (r.toNat < 8)

end Sys2Proof
end

