-- ==== Sys2Proof/Decode.lean ====
section
/-! DEFINITION. The encoding of the LS-8 CORE (30_encoding.md): the opcode table with its default byte values, the
decoder, total on any bytes and rejecting by name, and the encoder. -/

namespace Sys2Proof

/-! ## The opcode table -/

/-- The default `OPCODE_MAP`: the "opcode" column of 30_encoding.md R67. PRESUMED (log 1): the spec itself takes these
values from general knowledge. -/
def OpcodeMap.standard : OpcodeMap where
  halt := 0x01#8
  ldi  := 0x82#8
  prn  := 0x47#8
  add  := 0xA0#8
  mul  := 0xA2#8
  cmp  := 0xA7#8
  push := 0x45#8
  pop  := 0x46#8
  call := 0x50#8
  ret  := 0x11#8
  jmp  := 0x54#8
  jeq  := 0x55#8
  jne  := 0x56#8

/-- The default configuration (00_scope.md R7, R8): the standard opcode map, and `sticky` flags. -/
def Config.standard : Config where
  opcodeMap     := OpcodeMap.standard
  cmpFlagUpdate := .sticky

/-- The opcode byte a map gives a mnemonic. -/
def OpcodeMap.byteOf (m : OpcodeMap) : Mnemonic → Byte
  | .halt => m.halt
  | .ldi  => m.ldi
  | .prn  => m.prn
  | .add  => m.add
  | .mul  => m.mul
  | .cmp  => m.cmp
  | .push => m.push
  | .pop  => m.pop
  | .call => m.call
  | .ret  => m.ret
  | .jmp  => m.jmp
  | .jeq  => m.jeq
  | .jne  => m.jne

/-- The decoder's table lookup, by the whole opcode byte (30_encoding.md R63, 41_loop.md R103): the mnemonic whose
opcode the byte is, if there is one. -/
def OpcodeMap.lookup (m : OpcodeMap) (b : Byte) : Option Mnemonic :=
  Mnemonic.all.find? fun mn => m.byteOf mn == b

/-- How many operand bytes follow the opcode: the "operands" column of 30_encoding.md R67 (R60). The count comes from
this table, not from bits of the opcode (R63). -/
def Mnemonic.operandCount : Mnemonic → Nat
  | .halt => 0
  | .ldi  => 2
  | .prn  => 1
  | .add  => 2
  | .mul  => 2
  | .cmp  => 2
  | .push => 1
  | .pop  => 1
  | .call => 1
  | .ret  => 0
  | .jmp  => 1
  | .jeq  => 1
  | .jne  => 1

/-- The length of an instruction in bytes, 1 + operand count (30_encoding.md R60). -/
def Instr.length (i : Instr) : Nat :=
  1 + i.mnemonic.operandCount

/-! ## The decoder -/

/-- Why a byte sequence is not an instruction. -/
inductive DecodeError where
  /-- The opcode byte is not in `OPCODE_MAP` (30_encoding.md R70). -/
  | unknownOpcode (ir : Byte)
  /-- The bytes end before the instruction does. The machine always decodes a three-byte window, where this cannot
  happen (41_loop.md R102). -/
  | truncated
deriving DecidableEq, Repr

/-- The operand bytes of a mnemonic taken from what follows its opcode (30_encoding.md R61, R64), with the bytes left
over. Bytes past the operands are not looked at (R69). -/
def decodeOperands : Mnemonic → List Byte → Except DecodeError (Instr × List Byte)
  | .halt, rest          => .ok (.halt, rest)
  | .ret,  rest          => .ok (.ret, rest)
  | .prn,  a :: rest     => .ok (.prn a, rest)
  | .push, a :: rest     => .ok (.push a, rest)
  | .pop,  a :: rest     => .ok (.pop a, rest)
  | .call, a :: rest     => .ok (.call a, rest)
  | .jmp,  a :: rest     => .ok (.jmp a, rest)
  | .jeq,  a :: rest     => .ok (.jeq a, rest)
  | .jne,  a :: rest     => .ok (.jne a, rest)
  | .ldi,  a :: b :: rest => .ok (.ldi a b, rest)
  | .add,  a :: b :: rest => .ok (.add a b, rest)
  | .mul,  a :: b :: rest => .ok (.mul a b, rest)
  | .cmp,  a :: b :: rest => .ok (.cmp a b, rest)
  | .prn,  []  => .error .truncated
  | .push, []  => .error .truncated
  | .pop,  []  => .error .truncated
  | .call, []  => .error .truncated
  | .jmp,  []  => .error .truncated
  | .jeq,  []  => .error .truncated
  | .jne,  []  => .error .truncated
  | .ldi,  []  => .error .truncated
  | .add,  []  => .error .truncated
  | .mul,  []  => .error .truncated
  | .cmp,  []  => .error .truncated
  | .ldi,  [_] => .error .truncated
  | .add,  [_] => .error .truncated
  | .mul,  [_] => .error .truncated
  | .cmp,  [_] => .error .truncated

/-- Decode the instruction at the head of a byte sequence, in increasing address order (30_encoding.md R60, R63,
20_memory.md R45), and give back the bytes after it. -/
def decode (m : OpcodeMap) : List Byte → Except DecodeError (Instr × List Byte)
  | []         => .error .truncated
  | ir :: rest =>
    match m.lookup ir with
    | none    => .error (.unknownOpcode ir)
    | some mn => decodeOperands mn rest

/-! ## The encoder -/

/-- The operand bytes of an instruction, in address order (30_encoding.md R61). -/
def Instr.operandBytes : Instr → List Byte
  | .halt    => []
  | .ldi a b => [a, b]
  | .prn a   => [a]
  | .add a b => [a, b]
  | .mul a b => [a, b]
  | .cmp a b => [a, b]
  | .push a  => [a]
  | .pop a   => [a]
  | .call a  => [a]
  | .ret     => []
  | .jmp a   => [a]
  | .jeq a   => [a]
  | .jne a   => [a]

/-- The bytes of an instruction under an opcode map: the opcode, then the operands (30_encoding.md R60, R61). Every
instruction encodes; no operand value is ill formed (R66). -/
def encode (m : OpcodeMap) (i : Instr) : List Byte :=
  m.byteOf i.mnemonic :: i.operandBytes

/-! ## The words of the opcode table -/

/-- The three bytes, in address order, that hold an instruction whose `nbits` bits are `w` as spec/opcode_table.json
numbers them (the first byte in bits 7..0, the next in 15..8), with every bit above `nbits` zero. -/
def tableWordBytes (nbits w : Nat) : Byte × Byte × Byte :=
  let v := w % 2 ^ nbits
  (BitVec.ofNat 8 v, BitVec.ofNat 8 (v / 2 ^ 8), BitVec.ofNat 8 (v / 2 ^ 16))

/-- The instruction the decoder reads, under the default opcode map, from a word of spec/opcode_table.json. -/
def decodeTableWord (nbits w : Nat) : Option Instr :=
  match tableWordBytes nbits w with
  | (ir, a, b) =>
    match decode OpcodeMap.standard [ir, a, b] with
    | .ok (i, _) => some i
    | .error _   => none

end Sys2Proof
end

