-- ==== Sys2Proof/Machine/State.lean ====
section
/-! DEFINITION. The state of the LS-8 CORE (10_state.md): plain data that holds every piece of state the spec gives
the machine, the reasons a step can stop, and the state after reset (70_reset_and_hazards.md R181). -/

namespace Sys2Proof.Machine

/-- The three independent condition flags FL.E, FL.L and FL.G (10_state.md R29). -/
structure Flags where
  e : Bool
  l : Bool
  g : Bool
deriving DecidableEq, Repr

/-- The fetch latches `ir`, `operand_a` and `operand_b` (10_state.md R39, 41_loop.md R102). -/
structure Latches where
  ir       : Byte
  operandA : Byte
  operandB : Byte
deriving DecidableEq, Repr

/-- The cause of a halt (60_exceptions.md R162). -/
inductive HaltCause where
  | haltInstr
  | unknownOpcode
deriving DecidableEq, Repr

/-- The three kinds of OutOfBounds (60_exceptions.md R161). -/
inductive BoundsKind where
  /-- A memory address above 255. -/
  | memory
  /-- A register index of 8 or more that the instruction accesses. -/
  | register
  /-- A stack-pointer update past 0 or 255. -/
  | stack
deriving DecidableEq, Repr

/-- A raised `OutOfBounds(kind, info)` (00_scope.md R12, 60_exceptions.md R161). -/
structure OutOfBounds where
  kind : BoundsKind
  info : Nat
deriving DecidableEq, Repr

/-- The run status (10_state.md R35). -/
inductive Status where
  | running
  | halted (cause : HaltCause) (info : Byte)
  | faulted (kind : BoundsKind) (info : Nat)
deriving DecidableEq, Repr

/-- The memory array (20_memory.md R40), as the cells that do not hold their reset value 0 (R41). Its canonical form
is `Memory.wf`. -/
abbrev Memory := List Host.Cell

/-- The machine state. -/
structure State where
  /-- `x[0]` to `x[7]`; `x[7]` is SP (10_state.md R20, R21). -/
  regs    : Vector Byte 8
  /-- The program counter, a natural number that never wraps (10_state.md R25, R26). -/
  pc      : Nat
  /-- The condition flags (10_state.md R29). -/
  flags   : Flags
  /-- The 256 bytes of memory (20_memory.md R40). -/
  mem     : Memory
  /-- The run status (10_state.md R35). -/
  status  : Status
  /-- The output stream, oldest byte first (10_state.md R36). -/
  output  : List Byte
  /-- The fetch latches (10_state.md R39). -/
  latches : Latches
  /-- `OPCODE_MAP` and `CMP_FLAG_UPDATE` (00_scope.md R7, R8), fixed for the run (70_reset_and_hazards.md R181). -/
  config  : Config
deriving DecidableEq, Repr

/-- Why a step gives no next state. An OutOfBounds is NOT one of these: the spec describes the state it leaves, so it
is a next state whose status is `faulted` (00_scope.md R13; log 6). -/
inductive Fault where
  /-- Raised by `step` alone, when the status is not Running: "the core takes no further step" (41_loop.md R100, R101).
  DESIGN CHOICE (log 7). Safe: the hardware takes no step there either. -/
  | notRunning
deriving DecidableEq, Repr

/-- Why the model has no meaning for an instruction. -/
inductive Refusal where
  /-- Raised by `exec` for an instruction that has no meaning yet. Safe: the model stops where the hardware goes on.
  No arm of `exec` raises it: every instruction has its meaning. -/
  | notModelled (mnemonic : String)
deriving DecidableEq, Repr

/-- The machine right after reset under a configuration (70_reset_and_hazards.md R181). The flags are the spec's
decision D3 (log 3). The latches are unspecified: zero is this model's DESIGN CHOICE (log 4). -/
def State.resetWith (c : Config) : State where
  regs    := #v[0x00#8, 0x00#8, 0x00#8, 0x00#8, 0x00#8, 0x00#8, 0x00#8, 0xF4#8]
  pc      := 0
  flags   := { e := false, l := false, g := false }
  mem     := []
  status  := .running
  output  := []
  latches := { ir := 0x00#8, operandA := 0x00#8, operandB := 0x00#8 }
  config  := c

/-- The machine right after reset, under the default configuration (00_scope.md R7, R8). -/
def State.reset : State :=
  State.resetWith Config.standard

end Sys2Proof.Machine
end

