-- ==== Sys2Proof/Machine/Flags.lean ====
section
/-! DEFINITION. The flag computations. Only CMP writes flags (10_state.md R30); ADD and MUL produce none
(40_alu.md R85). -/

namespace Sys2Proof.Machine

/-- No flag set. -/
def Flags.none : Flags := { e := false, l := false, g := false }

/-- What the two flags that a CMP does not set start from: their prior values under `sticky`, zero under
`clear_first` (40_alu.md R83). -/
def Flags.beforeCompare (mode : CmpFlagUpdate) (f : Flags) : Flags :=
  match mode with
  | .sticky     => f
  | .clearFirst => Flags.none

/-- CMP's flags: set E, L or G by the unsigned comparison of the two values (40_alu.md R83). -/
def compareFlags (mode : CmpFlagUpdate) (va vb : Byte) (f : Flags) : Flags :=
  let f₀ := f.beforeCompare mode
  if va.toNat = vb.toNat then { f₀ with e := true }
  else if va.toNat < vb.toNat then { f₀ with l := true }
  else { f₀ with g := true }

/-- The flags as a word of the state view, `0b00000LGE` (10_state.md R33; log 18). No instruction reads it. -/
def Flags.word (f : Flags) : Byte :=
  BitVec.ofNat 8 (f.l.toNat * 4 + f.g.toNat * 2 + f.e.toNat)

end Sys2Proof.Machine
end

