-- ==== Sys2Proof/Machine/Ops.lean ====
section
/-! DEFINITION. The operations the meanings share: registers, memory, the named updates of the state, raising
OutOfBounds and committing a step, the stack-pointer primitives, the halts and the fetch. -/

namespace Sys2Proof.Machine

/-! ## Memory as data -/

/-- What a cell that is not listed holds: its reset value 0 (20_memory.md R41). -/
def Memory.unlisted : Byte := 0x00#8

/-- The byte at an address (20_memory.md R47). -/
def Memory.read : Memory → Nat → Byte
  | [], _            => Memory.unlisted
  | (b, w) :: m, a   => if a = b then w else Memory.read m a

/-- Put a byte in front of a memory, unless it is what an unlisted cell holds. -/
def Memory.cons (a : Nat) (v : Byte) (m : Memory) : Memory :=
  if v = Memory.unlisted then m else (a, v) :: m

/-- Store a byte at an address, keeping the canonical form (20_memory.md R50). -/
def Memory.write : Memory → Nat → Byte → Memory
  | [], a, v          => Memory.cons a v []
  | (b, w) :: m, a, v =>
    if a < b then Memory.cons a v ((b, w) :: m)
    else if a = b then Memory.cons a v m
    else (b, w) :: Memory.write m a v

/-- The canonical form of a memory: addresses strictly rising, every address one of the 256 the space has
(20_memory.md R40), and no cell that holds what an unlisted cell holds. -/
abbrev Memory.wf (m : Memory) : Prop :=
  m.Pairwise (fun c d => c.1 < d.1) ∧ ∀ c ∈ m, c.1 < 256 ∧ c.2 ≠ Memory.unlisted

/-! ## Reading and updating the state -/

/-- Register `x[r]`. No register is hard-wired (10_state.md R22). -/
def State.reg (s : State) (r : Fin 8) : Byte := s.regs[r]

/-- The stack pointer, register 7 (10_state.md R21). -/
def State.sp (s : State) : Byte := s.reg 7

/-- Write register `x[r]` (10_state.md R22). -/
def State.setReg (s : State) (r : Fin 8) (v : Byte) : State := { s with regs := s.regs.set r v }

/-- Write the stack pointer. -/
def State.setSp (s : State) (v : Byte) : State := s.setReg 7 v

/-- Write the program counter (00_scope.md R12). -/
def State.setPc (s : State) (pc : Nat) : State := { s with pc := pc }

/-- Move the program counter past the current instruction (41_loop.md R104). -/
def State.advance (s : State) (n : Nat) : State := s.setPc (s.pc + n)

/-- Write the flags (10_state.md R29). -/
def State.setFlags (s : State) (f : Flags) : State := { s with flags := f }

/-- Replace the memory array. -/
def State.setMem (s : State) (m : Memory) : State := { s with mem := m }

/-- Write the run status (10_state.md R35). -/
def State.setStatus (s : State) (st : Status) : State := { s with status := st }

/-- `Emit(v)`: append `v` to the output stream (00_scope.md R12, 10_state.md R36). -/
def State.emit (s : State) (v : Byte) : State := { s with output := s.output ++ [v] }

/-- Rewrite the fetch latches (10_state.md R39). -/
def State.setLatches (s : State) (w : Latches) : State := { s with latches := w }

/-! ## Bounds-checked memory access -/

/-- `MemRead(addr, 1)`: raises `OutOfBounds(Memory, addr)` above 255 (00_scope.md R12, 20_memory.md R42). -/
def memRead (addr : Nat) (s : State) : Except OutOfBounds Byte :=
  if 255 < addr then .error { kind := .memory, info := addr } else .ok (s.mem.read addr)

/-- `MemWrite(addr, 1, v)`: raises `OutOfBounds(Memory, addr)` above 255 (00_scope.md R12, 20_memory.md R42). -/
def memWrite (addr : Nat) (v : Byte) (s : State) : Except OutOfBounds State :=
  if 255 < addr then .error { kind := .memory, info := addr } else .ok (s.setMem (s.mem.write addr v))

/-! ## Stack-pointer primitives -/

/-- `SpDec()`: raises `OutOfBounds(Stack, 0)` when SP is 0 (42_stack.md R121; log 9). -/
def spDec (s : State) : Except OutOfBounds State :=
  if s.sp.toNat = 0 then .error { kind := .stack, info := 0 }
  else .ok (s.setSp (BitVec.ofNat 8 (s.sp.toNat - 1)))

/-- `SpInc()`: raises `OutOfBounds(Stack, 255)` when SP is 255 (42_stack.md R121; log 9). -/
def spInc (s : State) : Except OutOfBounds State :=
  if s.sp.toNat = 255 then .error { kind := .stack, info := 255 }
  else .ok (s.setSp (BitVec.ofNat 8 (s.sp.toNat + 1)))

/-! ## Faulting, committing and halting -/

/-- Take an OutOfBounds: the only change is that the status becomes `Faulted(kind, info)` (00_scope.md R13,
60_exceptions.md R165). There is no vector, no saved register and no return (R165, R166). -/
def State.takeFault (s : State) (e : OutOfBounds) : State := s.setStatus (.faulted e.kind e.info)

/-- End an instruction that ran on a working copy of `s` (00_scope.md R13): commit the copy, or, if a statement
raised, none of its writes. -/
def commit (s : State) (r : Except OutOfBounds State) : Host.Outcome State Fault Refusal :=
  match r with
  | .ok t    => .next t
  | .error e => .next (s.takeFault e)

/-- `Halt(cause, info)`: the pc stays at the stopping byte (00_scope.md R12, 10_state.md R28; log 11). -/
def State.halt (s : State) (cause : HaltCause) (info : Byte) : State := s.setStatus (.halted cause info)

/-! ## Fetch -/

/-- The three fetch reads of every step, in address order, whatever the opcode (41_loop.md R102, 30_encoding.md
R68). -/
def fetch (s : State) : Except OutOfBounds Latches := do
  let ir ← memRead s.pc s
  let a ← memRead (s.pc + 1) s
  let b ← memRead (s.pc + 2) s
  return { ir := ir, operandA := a, operandB := b }

/-- The fetched bytes in address order (20_memory.md R45). -/
def Latches.bytes (w : Latches) : List Byte := [w.ir, w.operandA, w.operandB]

/-- Whether the status is Faulted. -/
def Status.isFaulted : Status → Bool
  | .running    => false
  | .halted _ _ => false
  | .faulted _ _ => true

/-- The fetch latches as a step leaves them: the fetched bytes, or, when the step faulted, what they held before it,
since a faulting step commits none of its writes (00_scope.md R13; log 5). -/
def State.commitLatches (w : Latches) (s : State) : State :=
  if s.status.isFaulted then s else s.setLatches w

/-- A step's outcome from its instruction's outcome: the fetch latches are committed with the rest. -/
def latchOutcome (w : Latches) : Host.Outcome State Fault Refusal → Host.Outcome State Fault Refusal
  | .next t    => .next (t.commitLatches w)
  | .fault f   => .fault f
  | .refused r => .refused r

/-- Store three bytes where the next step fetches (the host's load port, 00_scope.md R9). Where the fetch window
reaches past 255 there is nothing to store to (41_loop.md R102). -/
def State.placeWindow (s : State) (w : Latches) : State :=
  if s.pc ≤ 253 then
    s.setMem (((s.mem.write s.pc w.ir).write (s.pc + 1) w.operandA).write (s.pc + 2) w.operandB)
  else s

end Sys2Proof.Machine
end

