-- ==== Sys2Proof/Machine/Operands.lean ====
section
/-! DEFINITION. The operand forms (30_encoding.md R64): a register index, checked when the register is accessed and
not at decode (00_scope.md R12, 30_encoding.md R66; log 12), and LDI's immediate, which is the operand byte itself
(R65). -/

namespace Sys2Proof.Machine

/-- `x[i]` as a value: raises `OutOfBounds(Register, i)` when `i ≥ 8` (00_scope.md R12). -/
def readReg (i : Byte) (s : State) : Except OutOfBounds Byte :=
  if h : i.toNat < 8 then .ok (s.reg ⟨i.toNat, h⟩) else .error { kind := .register, info := i.toNat }

/-- `x[i] <- v`: raises `OutOfBounds(Register, i)` when `i ≥ 8` (00_scope.md R12). -/
def writeReg (i : Byte) (v : Byte) (s : State) : Except OutOfBounds State :=
  if h : i.toNat < 8 then .ok (s.setReg ⟨i.toNat, h⟩ v) else .error { kind := .register, info := i.toNat }

/-- `pc <- x[i]`: an absolute target, unchecked (43_control.md R141). -/
def jumpTo (i : Byte) (s : State) : Except OutOfBounds State := do
  let t ← readReg i s
  return s.setPc t.toNat

end Sys2Proof.Machine
end

