-- ==== Sys2Proof/Machine/Alu.lean ====
section
/-! DEFINITION. The ALU instructions ADD, MUL and CMP (40_alu.md). The ALU has these three operations and no other
(R80); UnsupportedALUOperation has no state or step (R84). -/

namespace Sys2Proof.Machine

/-- The ALU's sum, modulo 256 (40_alu.md R81). -/
def aluAdd (va vb : Byte) : Byte := BitVec.ofNat 8 ((va.toNat + vb.toNat) % 256)

/-- The ALU's unsigned product, modulo 256 (40_alu.md R82). -/
def aluMul (va vb : Byte) : Byte := BitVec.ofNat 8 ((va.toNat * vb.toNat) % 256)

/-- An arithmetic instruction: read `x[a]`, then `x[b]`, then write the result into `x[a]` (40_alu.md R80, R81). -/
def aluInto (f : Byte → Byte → Byte) (a b : Byte) (s : State) : Except OutOfBounds State := do
  let va ← readReg a s
  let vb ← readReg b s
  let t ← writeReg a (f va vb) s
  return t.advance 3

/-- ADD (40_alu.md R81). -/
def execAdd (a b : Byte) (s : State) : Host.Outcome State Fault Refusal :=
  commit s (aluInto aluAdd a b s)

/-- MUL (40_alu.md R82). -/
def execMul (a b : Byte) (s : State) : Host.Outcome State Fault Refusal :=
  commit s (aluInto aluMul a b s)

/-- CMP (40_alu.md R83). -/
def execCmp (a b : Byte) (s : State) : Host.Outcome State Fault Refusal :=
  commit s do
    let va ← readReg a s
    let vb ← readReg b s
    return (s.setFlags (compareFlags s.config.cmpFlagUpdate va vb s.flags)).advance 3

end Sys2Proof.Machine
end

