-- ==== Sys2Proof/Machine/Control.lean ====
section
/-! DEFINITION. CALL, RET, JMP, JEQ and JNE (43_control.md), each statement in the order the source writes it
(00_scope.md R14; log 13). -/

namespace Sys2Proof.Machine

/-- CALL's return address, the byte just after its operand (43_control.md R142). In a step `pc ≤ 253`, so `pc + 2`
fits a byte (log 8). -/
def returnAddress (s : State) : Byte := BitVec.ofNat 8 (s.pc + 2)

/-- CALL: "`sp -= 1; mem[sp] = pc+2; pc = reg[a]`" (43_control.md R142). -/
def execCall (a : Byte) (s : State) : Host.Outcome State Fault Refusal :=
  commit s do
    let s₁ ← spDec s
    let s₂ ← memWrite s₁.sp.toNat (returnAddress s₁) s₁
    jumpTo a s₂

/-- RET: "`pc = mem[sp]; sp += 1`" (43_control.md R143). -/
def execRet (s : State) : Host.Outcome State Fault Refusal :=
  commit s do
    let t ← memRead s.sp.toNat s
    let s₁ ← spInc s
    return s₁.setPc t.toNat

/-- JMP (43_control.md R144). -/
def execJmp (a : Byte) (s : State) : Host.Outcome State Fault Refusal :=
  commit s (jumpTo a s)

/-- JEQ: `x[a]` is read only when the jump is taken (43_control.md R145). -/
def execJeq (a : Byte) (s : State) : Host.Outcome State Fault Refusal :=
  commit s (if s.flags.e then jumpTo a s else .ok (s.advance 2))

/-- JNE: `x[a]` is read only when the jump is taken (43_control.md R146). -/
def execJne (a : Byte) (s : State) : Host.Outcome State Fault Refusal :=
  commit s (if s.flags.e then .ok (s.advance 2) else jumpTo a s)

end Sys2Proof.Machine
end

