-- ==== Sys2Proof/Machine/Loop.lean ====
section
/-! DEFINITION. HALT, LDI and PRN (41_loop.md). -/

namespace Sys2Proof.Machine

/-- HALT (41_loop.md R106). -/
def execHalt (s : State) : Host.Outcome State Fault Refusal :=
  commit s (.ok (s.halt .haltInstr 0x00#8))

/-- LDI: the immediate is the operand byte as it is (41_loop.md R107, 30_encoding.md R65). -/
def execLdi (a b : Byte) (s : State) : Host.Outcome State Fault Refusal :=
  commit s do
    let t ← writeReg a b s
    return t.advance 3

/-- PRN: the 8-bit value goes to the output stream (41_loop.md R108; log 15). -/
def execPrn (a : Byte) (s : State) : Host.Outcome State Fault Refusal :=
  commit s do
    let v ← readReg a s
    return (s.emit v).advance 2

end Sys2Proof.Machine
end

