-- ==== Sys2Proof/Machine/Stack.lean ====
section
/-! DEFINITION. PUSH and POP (42_stack.md), each statement in the order the source writes it (00_scope.md R14;
log 13). -/

namespace Sys2Proof.Machine

/-- PUSH: "`sp -= 1; mem[sp] = reg[a]`" (42_stack.md R122). -/
def execPush (a : Byte) (s : State) : Host.Outcome State Fault Refusal :=
  commit s do
    let s₁ ← spDec s
    let v ← readReg a s₁
    let s₂ ← memWrite s₁.sp.toNat v s₁
    return s₂.advance 2

/-- POP: "`reg[a] = mem[sp]; sp += 1`" (42_stack.md R123). -/
def execPop (a : Byte) (s : State) : Host.Outcome State Fault Refusal :=
  commit s do
    let v ← memRead s.sp.toNat s
    let s₁ ← writeReg a v s
    let s₂ ← spInc s₁
    return s₂.advance 2

end Sys2Proof.Machine
end

