-- ==== Sys2Proof/Machine/Step.lean ====
section
/-! DEFINITION. One step of the machine (41_loop.md R109): fetch, decode, execute, commit. -/

namespace Sys2Proof.Machine

/-- One step. It is enabled exactly when the status is Running (41_loop.md R101); a stopped machine takes none
(R100; log 7). -/
def step (s : State) : Host.Outcome State Fault Refusal :=
  match s.status with
  | .halted _ _  => .fault .notRunning
  | .faulted _ _ => .fault .notRunning
  | .running =>
    match fetch s with
    | .error e => .next (s.takeFault e)
    | .ok w =>
      match decode s.config.opcodeMap w.bytes with
      | .ok (i, _) => latchOutcome w (exec i s)
      | .error _   => .next ((s.halt .unknownOpcode w.ir).setLatches w)

/-- `s` with the instruction of a word of spec/opcode_table.json stored at the program counter, where `step` fetches
(log 14). -/
def State.withFetchWord (s : State) (nbits w : Nat) : State :=
  match tableWordBytes nbits w with
  | (ir, a, b) => s.placeWindow { ir := ir, operandA := a, operandB := b }

end Sys2Proof.Machine
end

