-- ==== Sys2Proof/Machine/Loader.lean ====
section
/-! DEFINITION. How a program comes to run: the load port (00_scope.md R9), the boot order (70_reset_and_hazards.md
R182) and the program texts the spec describes (30_encoding.md R73, R75). The loader is "an external collaborator"
(00_scope.md R4): no step calls anything of this file. -/

namespace Sys2Proof.Machine

/-! ## The load port -/

/-- One write through the load port: an 8-bit address and 8-bit data, before the first step (00_scope.md R9). -/
def State.loadByte (s : State) (a v : Byte) : State :=
  s.setMem (s.mem.write a.toNat v)

/-- Write bytes at consecutive addresses. -/
def Memory.place (m : Memory) : Nat → List Byte → Memory
  | _, []      => m
  | a, v :: vs => Memory.place (m.write a v) (a + 1) vs

/-- Why no run starts (60_exceptions.md R160, 70_reset_and_hazards.md R182). -/
inductive LoadError where
  /-- A line of the image text is neither blank, nor a comment, nor a binary literal (30_encoding.md R75). -/
  | malformedLine (number : Nat)
  /-- More than 256 bytes (70_reset_and_hazards.md R182; log 14). -/
  | imageTooLong (length : Nat)
deriving DecidableEq, Repr

/-- Write an image at addresses 0, 1, 2, ... (20_memory.md R41, 70_reset_and_hazards.md R182). -/
def State.loadImage (s : State) (image : List Byte) : Except LoadError State :=
  if 256 < image.length then .error (.imageTooLong image.length)
  else .ok (s.setMem (s.mem.place 0 image))

/-- Boot up to the first step: reset, then load (70_reset_and_hazards.md R182). -/
def boot (c : Config) (image : List Byte) : Except LoadError State :=
  (State.resetWith c).loadImage image

/-! ## The image text format -/

/-- A binary digit. -/
def binaryDigit : Char → Option Nat
  | '0' => some 0
  | '1' => some 1
  | _   => none

/-- The value of binary digits, most significant first (00_scope.md R10), continuing from `n`. -/
def binaryValue : Nat → List Char → Option Nat
  | n, []      => some n
  | n, c :: cs =>
    match binaryDigit c with
    | some d => binaryValue (2 * n + d) cs
    | none   => none

/-- An 8-digit binary literal (30_encoding.md R75). -/
def parseByte (cs : List Char) : Option Byte :=
  if cs.length = 8 then (binaryValue 0 cs).map (BitVec.ofNat 8) else none

/-- A line without its trailing comment and the white space around what is left (30_encoding.md R75; log 14). -/
def stripLine (cs : List Char) : List Char :=
  (((cs.takeWhile (· != '#')).dropWhile Char.isWhitespace).reverse.dropWhile Char.isWhitespace).reverse

/-- The bytes of the lines of an image text, the first being line `number`; blank and comment-only lines give no byte
(30_encoding.md R75). -/
def parseLines : Nat → List (List Char) → Except LoadError (List Byte)
  | _, []                => .ok []
  | number, line :: rest =>
    match stripLine line with
    | []      => parseLines (number + 1) rest
    | c :: cs =>
      match parseByte (c :: cs) with
      | none   => .error (.malformedLine number)
      | some v => (parseLines (number + 1) rest).map (v :: ·)

/-- The bytes of an image text, given as its lines (30_encoding.md R75). -/
def parseImage (lines : List (List Char)) : Except LoadError (List Byte) :=
  parseLines 1 lines

/-- A byte as an 8-digit binary literal, most significant bit first (00_scope.md R10, 30_encoding.md R75). -/
def renderByte (v : Byte) : List Char :=
  (List.range 8).map fun k => if v.getMsbD k then '1' else '0'

/-! ## Assembly text -/

/-- The mnemonic as assembly text (00_scope.md R2). -/
def mnemonicText : Mnemonic → List Char
  | .halt => ['H', 'A', 'L', 'T']
  | .ldi  => ['L', 'D', 'I']
  | .prn  => ['P', 'R', 'N']
  | .add  => ['A', 'D', 'D']
  | .mul  => ['M', 'U', 'L']
  | .cmp  => ['C', 'M', 'P']
  | .push => ['P', 'U', 'S', 'H']
  | .pop  => ['P', 'O', 'P']
  | .call => ['C', 'A', 'L', 'L']
  | .ret  => ['R', 'E', 'T']
  | .jmp  => ['J', 'M', 'P']
  | .jeq  => ['J', 'E', 'Q']
  | .jne  => ['J', 'N', 'E']

/-- A decimal number in 0..255 without leading zeros. -/
def decimal (v : Byte) : List Char :=
  let digit (n : Nat) : Char := Char.ofNat (48 + n)
  let n := v.toNat
  if n < 10 then [digit n]
  else if n < 100 then [digit (n / 10), digit (n % 10)]
  else [digit (n / 100), digit (n / 10 % 10), digit (n % 10)]

/-- A register operand, `R0` to `R7` (30_encoding.md R73). An index of 8 or more has no written form. -/
def registerText (r : Byte) : Option (List Char) :=
  if r.toNat < 8 then some ('R' :: decimal r) else none

/-- A mnemonic, a space, and its operand texts separated by a comma (30_encoding.md R73). -/
def asmLine (mn : Mnemonic) : List (Option (List Char)) → Option (List Char)
  | []            => some (mnemonicText mn)
  | first :: rest => do
    let t ← first
    let ts ← rest.mapM id
    return mnemonicText mn ++ [' '] ++ t ++ ts.flatMap (',' :: ·)

/-- An instruction in assembly, its immediate in decimal (30_encoding.md R73); none when a register operand has no
written form. There are no pseudo-instructions (R74). -/
def asmText (i : Instr) : Option (List Char) :=
  match i with
  | .halt    => asmLine .halt []
  | .ldi a b => asmLine .ldi [registerText a, some (decimal b)]
  | .prn a   => asmLine .prn [registerText a]
  | .add a b => asmLine .add [registerText a, registerText b]
  | .mul a b => asmLine .mul [registerText a, registerText b]
  | .cmp a b => asmLine .cmp [registerText a, registerText b]
  | .push a  => asmLine .push [registerText a]
  | .pop a   => asmLine .pop [registerText a]
  | .call a  => asmLine .call [registerText a]
  | .ret     => asmLine .ret []
  | .jmp a   => asmLine .jmp [registerText a]
  | .jeq a   => asmLine .jeq [registerText a]
  | .jne a   => asmLine .jne [registerText a]

end Sys2Proof.Machine
end

