-- ==== Sys2Proof/Machine/View.lean ====
section
/-! DEFINITION. What the host reads from the core (00_scope.md R9, 41_loop.md R111): the status outputs and the state
view. The output port's bytes are the state's `output`. -/

namespace Sys2Proof.Machine

/-- The status outputs `run_state`, `cause` and `info` (60_exceptions.md R162). -/
structure StatusOutputs where
  runState : Nat
  cause    : Nat
  info     : Nat
deriving DecidableEq, Repr

/-- The encoding of the run status (60_exceptions.md R162; log 18). -/
def Status.outputs : Status → StatusOutputs
  | .running                    => { runState := 0, cause := 0, info := 0 }
  | .halted .haltInstr info     => { runState := 1, cause := 1, info := info.toNat }
  | .halted .unknownOpcode info => { runState := 1, cause := 2, info := info.toNat }
  | .faulted .memory info       => { runState := 2, cause := 3, info := info }
  | .faulted .register info     => { runState := 2, cause := 4, info := info }
  | .faulted .stack info        => { runState := 2, cause := 5, info := info }

/-- The status outputs of a state. -/
def State.statusOutputs (s : State) : StatusOutputs := s.status.outputs

/-- The read-only state view: registers, flags, pc and memory (00_scope.md R9). -/
structure StateView where
  regs  : Vector Byte 8
  flags : Byte
  pc    : Nat
  mem   : List Byte
deriving DecidableEq, Repr

/-- The state view of a state, with the flags as one word (10_state.md R33) and all 256 bytes of memory in address
order. -/
def State.stateView (s : State) : StateView where
  regs  := s.regs
  flags := s.flags.word
  pc    := s.pc
  mem   := (List.range 256).map s.mem.read

end Sys2Proof.Machine
end

