-- ==== Sys2Proof/Safety.lean ====
section
/-! DEFINITION. What counts as a good state and a good end of a run: the terms the claims use. -/

namespace Sys2Proof.Machine

/-- A legal status: its info is one that 60_exceptions.md R162 lists for its cause. -/
def Status.wf : Status → Bool
  | .running                => true
  | .halted .haltInstr info => decide (info = 0x00#8)
  | .halted .unknownOpcode _ => true
  | .faulted .memory info   => decide (255 < info)
  | .faulted .register info => decide (8 ≤ info ∧ info < 256)
  | .faulted .stack info    => decide (info = 0 ∨ info = 255)

/-- The machine's invariant: memory in canonical form, the pc one a run can give (10_state.md R26), a legal status
(60_exceptions.md R162) and an injective opcode map (00_scope.md R7). -/
structure State.Inv (s : State) : Prop where
  mem    : s.mem.wf
  pc     : s.pc ≤ 256
  status : s.status.wf = true
  config : s.config.wf = true

/-- The run has ended (41_loop.md R110). -/
def State.stopped (s : State) : Bool :=
  decide (s.status ≠ .running)

/-- The run has ended successfully: only by HALT (41_loop.md R110; log 18). -/
def State.successful (s : State) : Bool :=
  decide (s.status = .halted .haltInstr 0x00#8)

/-- The run has faulted (10_state.md R35). -/
def State.faulted (s : State) : Bool :=
  s.status.isFaulted

end Sys2Proof.Machine
end

