-- ==== Sys2Proof/Certificates/Slice0/Obligations.lean ====
section
/-! DEFINITION. The statements for the provers. Each docstring names the rule of spec/ it formalises and says what in
it is the spec's own decision or inference, or this model's choice (a log entry). -/

open Sys2Proof Sys2Proof.Machine

/-! ## Reset and boot -/

/-- 10_state.md R24: after reset every register is 0 but SP, which is 0xF4, under every configuration. -/
def Obligations.ResetRegisters : Prop :=
  ∀ c : Config, (∀ r : Fin 8, r ≠ 7 → (State.resetWith c).reg r = 0x00#8) ∧ (State.resetWith c).reg 7 = 0xF4#8 ∧
    State.reset = State.resetWith Config.standard

/-- 10_state.md R27: after reset the pc is 0 and the status Running. -/
def Obligations.ResetPcAndStatus : Prop :=
  ∀ c : Config, (State.resetWith c).pc = 0 ∧ (State.resetWith c).status = .running

/-- 10_state.md R37: memory is 256 bytes, each 0 at reset; an address past them raises. -/
def Obligations.ResetMemoryIsZero : Prop :=
  ∀ (c : Config) (a : Nat),
    (a ≤ 255 → memRead a (State.resetWith c) = .ok 0x00#8) ∧
    (255 < a → memRead a (State.resetWith c) = .error { kind := .memory, info := a })

/-- 70_reset_and_hazards.md section 1: the flags are 0 (the spec's decision D3), the output empty (D12), and the default
configuration is sticky (00_scope.md R8, D2) with the LS-8 standard opcodes (R7, D1; log 1: PRESUMED values). The
flags are log 3. -/
def Obligations.ResetFlagsOutputAndConfig : Prop :=
  State.reset.flags = { e := false, l := false, g := false } ∧ State.reset.output = [] ∧
    State.reset.config.cmpFlagUpdate = .sticky ∧
    State.reset.config.opcodeMap.bytes =
      [0x01#8, 0x82#8, 0x47#8, 0xA0#8, 0xA2#8, 0xA7#8, 0x45#8, 0x46#8, 0x50#8, 0x11#8, 0x54#8, 0x55#8, 0x56#8]

/-- 20_memory.md R41: the host loader writes the image at 0, 1, 2, ... and the cells it does not cover stay 0. All other
state is as after reset. -/
def Obligations.LoadedImageInMemory : Prop :=
  ∀ (c : Config) (image : List Byte), image.length ≤ 256 →
    ∃ t, boot c image = .ok t ∧ (∀ a, t.mem.read a = image.getD a 0x00#8) ∧
      t = { State.resetWith c with mem := t.mem }

/-- 70_reset_and_hazards.md section 2: an image longer than 256 bytes is a load error and no run starts (the spec's
decision D17, log 14). -/
def Obligations.OverlongImageIsRefused : Prop :=
  ∀ (c : Config) (image : List Byte), 256 < image.length → boot c image = .error (.imageTooLong image.length)

/-- 30_encoding.md section 5 (image format): an image text gives its bytes in order. Each line is a binary literal or
nothing, then spaces, then a comment or nothing; lines without a literal give no byte. That spaces after a literal
are dropped is DEDUCED from the spec's own example (log 14). -/
def Obligations.ImageTextGivesItsBytes : Prop :=
  ∀ lines : List (Option Byte × Nat × Option (List Char)),
    parseImage (lines.map fun (v, n, comment) =>
      (v.map renderByte).getD [] ++ List.replicate n ' ' ++ (comment.map ('#' :: ·)).getD []) =
        .ok (lines.filterMap (·.1))

/-! ## Encoding -/

/-- 30_encoding.md sections 1 and 3: the words of all thirteen instructions under the default opcode map, whose values
the spec takes from general knowledge (D1; log 1). -/
def Obligations.DecodeStandardWords : Prop :=
  (decode OpcodeMap.standard [0b00000001#8] = .ok (.halt, [])) ∧
  (decode OpcodeMap.standard [0b10000010#8, 0x03#8, 0xFE#8] = .ok (.ldi 0x03#8 0xFE#8, [])) ∧
  (decode OpcodeMap.standard [0b01000111#8, 0x05#8] = .ok (.prn 0x05#8, [])) ∧
  (decode OpcodeMap.standard [0b10100000#8, 0x01#8, 0x02#8] = .ok (.add 0x01#8 0x02#8, [])) ∧
  (decode OpcodeMap.standard [0b10100010#8, 0x01#8, 0x02#8] = .ok (.mul 0x01#8 0x02#8, [])) ∧
  (decode OpcodeMap.standard [0b10100111#8, 0x01#8, 0x02#8] = .ok (.cmp 0x01#8 0x02#8, [])) ∧
  (decode OpcodeMap.standard [0b01000101#8, 0x07#8] = .ok (.push 0x07#8, [])) ∧
  (decode OpcodeMap.standard [0b01000110#8, 0x07#8] = .ok (.pop 0x07#8, [])) ∧
  (decode OpcodeMap.standard [0b01010000#8, 0x06#8] = .ok (.call 0x06#8, [])) ∧
  (decode OpcodeMap.standard [0b00010001#8] = .ok (.ret, [])) ∧
  (decode OpcodeMap.standard [0b01010100#8, 0x06#8] = .ok (.jmp 0x06#8, [])) ∧
  (decode OpcodeMap.standard [0b01010101#8, 0x06#8] = .ok (.jeq 0x06#8, [])) ∧
  (decode OpcodeMap.standard [0b01010110#8, 0x06#8] = .ok (.jne 0x06#8, []))

/-- 30_encoding.md sections 1 and 2: for every instruction, every operand value and every injective opcode map, decoding
the encoding followed by any bytes gives the instruction back, and exactly those bytes. -/
def Obligations.DecodeOfEncode : Prop :=
  ∀ (m : OpcodeMap) (i : Instr) (rest : List Byte), m.wf = true → decode m (encode m i ++ rest) = .ok (i, rest)

/-- 30_encoding.md section 1: the bytes an instruction was decoded from are its encoding, and nothing else of them was
used, under every opcode map. -/
def Obligations.EncodeOfDecode : Prop :=
  ∀ (m : OpcodeMap) (bytes : List Byte) (i : Instr) (rest : List Byte),
    decode m bytes = .ok (i, rest) → bytes = encode m i ++ rest

/-- 30_encoding.md section 4: the unknown opcodes are exactly the bytes outside the opcode map, and the default map has
243 of them (its values are log 1). -/
def Obligations.UnknownOpcodesAreTheBytesOutsideTheMap : Prop :=
  (∀ (m : OpcodeMap) (b : Byte) (rest : List Byte), decode m (b :: rest) = .error (.unknownOpcode b) ↔ b ∉ m.bytes) ∧
  ((List.range 256).filter fun n => decide (BitVec.ofNat 8 n ∉ OpcodeMap.standard.bytes)).length = 243

/-- 30_encoding.md section 1: in the default map, bits [7:6] of each opcode hold its operand count, which the spec
derives from its default values (log 1). -/
def Obligations.OpcodeBitsHoldOperandCount : Prop :=
  ∀ mn : Mnemonic, (OpcodeMap.standard.byteOf mn).toNat / 64 = mn.operandCount

/-- 30_encoding.md section 4: the bytes of the fetch window that an instruction does not use have no effect on which
instruction it is. -/
def Obligations.UnusedOperandBytesAreIgnored : Prop :=
  ∀ (m : OpcodeMap) (ir a b a' b' : Byte) (i : Instr) (rest : List Byte),
    decode m [ir, a, b] = .ok (i, rest) →
      (i.mnemonic.operandCount = 0 → decode m [ir, a', b'] = .ok (i, [a', b'])) ∧
      (i.mnemonic.operandCount = 1 → decode m [ir, a, b'] = .ok (i, [b'])) ∧
      (i.mnemonic.operandCount = 2 → rest = [])

/-! ## The step -/

/-- 41_loop.md section 3: a running machine whose three-byte window decodes to `i` runs `i`, and the fetch latches hold
the window, unless the step faults, when they keep their values (log 5). -/
def Obligations.StepRunsDecodedInstruction : Prop :=
  ∀ (s : State) (i : Instr) (rest : List Byte), s.status = .running → s.pc ≤ 253 →
    decode s.config.opcodeMap [s.mem.read s.pc, s.mem.read (s.pc + 1), s.mem.read (s.pc + 2)] = .ok (i, rest) →
      ∃ t, exec i s = .next t ∧
        step s = .next (if t.status.isFaulted then t else
          { t with latches := ⟨s.mem.read s.pc, s.mem.read (s.pc + 1), s.mem.read (s.pc + 2)⟩ })

/-- 41_loop.md section 1 (fetch): a running machine with pc ≥ 254 faults at the first address above 255 of its window,
whatever the bytes are, and only the status changes (the spec's decision D6; log 5 for the latches). -/
def Obligations.StepFetchFault : Prop :=
  ∀ s : State, s.status = .running → 254 ≤ s.pc →
    step s = .next { s with status := .faulted .memory (if s.pc ≤ 255 then 256 else s.pc) }

/-- 41_loop.md section 1 (unknown opcode): a running machine at pc ≤ 253 whose byte is not in the opcode map soft-halts
with that byte. That the pc stays is the spec's decision D15. -/
def Obligations.StepUnknownOpcode : Prop :=
  ∀ s : State, s.status = .running → s.pc ≤ 253 → s.mem.read s.pc ∉ s.config.opcodeMap.bytes →
    step s = .next { s with
      status := .halted .unknownOpcode (s.mem.read s.pc)
      latches := ⟨s.mem.read s.pc, s.mem.read (s.pc + 1), s.mem.read (s.pc + 2)⟩ }

/-- 41_loop.md section 1: a step is enabled exactly when the status is Running, and a stopped machine takes none, nor
does any run from it. That "no step" is the fault `notRunning` is the model's choice (log 7). -/
def Obligations.StepEnabledExactlyWhenRunning : Prop :=
  ∀ s : State, ((∃ t, step s = .next t) ↔ s.status = .running) ∧
    (s.status ≠ .running → ∀ k, Host.Core.run Sys2Proof.core (k + 1) s = .fault .notRunning)

/-- Every instruction, on every state and all operands, answers a next state: no meaning stops the model
(60_exceptions.md section 1 gives every raise its effect). -/
def Obligations.ExecAnswersNextState : Prop :=
  ∀ (i : Instr) (s : State), ∃ t, exec i s = .next t

/-! ## ALU -/

/-- 40_alu.md section 2 (ADD): encoding under the default map (log 1: PRESUMED values), result, what stays, exceptions
in their order (the spec's decisions D6, D7). -/
def Obligations.AddRule : Prop :=
  ∀ (s : State) (a b : Byte),
    decode OpcodeMap.standard [0xA0#8, a, b] = .ok (.add a b, []) ∧
    (∀ (ha : a.toNat < 8) (hb : b.toNat < 8), ∃ t, exec (.add a b) s = .next t ∧
      (t.reg ⟨a.toNat, ha⟩).toNat = ((s.reg ⟨a.toNat, ha⟩).toNat + (s.reg ⟨b.toNat, hb⟩).toNat) % 256 ∧
      t.pc = s.pc + 3 ∧ (∀ r : Fin 8, r.val ≠ a.toNat → t.reg r = s.reg r) ∧
      t.flags = s.flags ∧ t.mem = s.mem ∧ t.status = s.status ∧ t.output = s.output) ∧
    (8 ≤ a.toNat → exec (.add a b) s = .next { s with status := .faulted .register a.toNat }) ∧
    (a.toNat < 8 → 8 ≤ b.toNat → exec (.add a b) s = .next { s with status := .faulted .register b.toNat })

/-- 40_alu.md section 2 (MUL): encoding under the default map (log 1: PRESUMED values), result, what stays, exceptions
in their order (the spec's decisions D6, D7). The last clause of the result, that signed and unsigned products agree
in their low 8 bits, is the spec's own inference. -/
def Obligations.MulRule : Prop :=
  ∀ (s : State) (a b : Byte),
    decode OpcodeMap.standard [0xA2#8, a, b] = .ok (.mul a b, []) ∧
    (∀ (ha : a.toNat < 8) (hb : b.toNat < 8), ∃ t, exec (.mul a b) s = .next t ∧
      (t.reg ⟨a.toNat, ha⟩).toNat = ((s.reg ⟨a.toNat, ha⟩).toNat * (s.reg ⟨b.toNat, hb⟩).toNat) % 256 ∧
      t.pc = s.pc + 3 ∧ (∀ r : Fin 8, r.val ≠ a.toNat → t.reg r = s.reg r) ∧
      t.flags = s.flags ∧ t.mem = s.mem ∧ t.status = s.status ∧ t.output = s.output ∧
      t.reg ⟨a.toNat, ha⟩ = BitVec.ofInt 8 ((s.reg ⟨a.toNat, ha⟩).toInt * (s.reg ⟨b.toNat, hb⟩).toInt)) ∧
    (8 ≤ a.toNat → exec (.mul a b) s = .next { s with status := .faulted .register a.toNat }) ∧
    (a.toNat < 8 → 8 ≤ b.toNat → exec (.mul a b) s = .next { s with status := .faulted .register b.toNat })

/-- 40_alu.md section 2 (CMP): encoding under the default map (log 1: PRESUMED values); the flags under both values of
`CMP_FLAG_UPDATE` (the spec's decision D2); nothing else but the pc changes; exceptions in their order (D6, D7). -/
def Obligations.CmpRule : Prop :=
  ∀ (s : State) (a b : Byte),
    decode OpcodeMap.standard [0xA7#8, a, b] = .ok (.cmp a b, []) ∧
    (∀ (ha : a.toNat < 8) (hb : b.toNat < 8), ∃ t, exec (.cmp a b) s = .next t ∧
      (s.config.cmpFlagUpdate = .sticky →
        t.flags.e = (s.flags.e || decide ((s.reg ⟨a.toNat, ha⟩).toNat = (s.reg ⟨b.toNat, hb⟩).toNat)) ∧
        t.flags.l = (s.flags.l || decide ((s.reg ⟨a.toNat, ha⟩).toNat < (s.reg ⟨b.toNat, hb⟩).toNat)) ∧
        t.flags.g = (s.flags.g || decide ((s.reg ⟨b.toNat, hb⟩).toNat < (s.reg ⟨a.toNat, ha⟩).toNat))) ∧
      (s.config.cmpFlagUpdate = .clearFirst →
        t.flags.e = decide ((s.reg ⟨a.toNat, ha⟩).toNat = (s.reg ⟨b.toNat, hb⟩).toNat) ∧
        t.flags.l = decide ((s.reg ⟨a.toNat, ha⟩).toNat < (s.reg ⟨b.toNat, hb⟩).toNat) ∧
        t.flags.g = decide ((s.reg ⟨b.toNat, hb⟩).toNat < (s.reg ⟨a.toNat, ha⟩).toNat)) ∧
      t = { s with flags := t.flags, pc := s.pc + 3 }) ∧
    (8 ≤ a.toNat → exec (.cmp a b) s = .next { s with status := .faulted .register a.toNat }) ∧
    (a.toNat < 8 → 8 ≤ b.toNat → exec (.cmp a b) s = .next { s with status := .faulted .register b.toNat })

/-- 40_alu.md section 2, last rule, under `sticky`: over any run from any state, a flag that is 1 stays 1. The spec
derives it from its CMP rule. -/
def Obligations.StickyFlagsNeverClear : Prop :=
  ∀ (k : Nat) (s t : State), s.config.cmpFlagUpdate = .sticky → Host.Core.run Sys2Proof.core k s = .next t →
    (s.flags.e = true → t.flags.e = true) ∧ (s.flags.l = true → t.flags.l = true) ∧
    (s.flags.g = true → t.flags.g = true)

/-- 40_alu.md section 2, last rule, under `clear_first`: from a state in which at most one flag is 1, at most one is 1
after any run. The spec derives it from its CMP rule and the reset values (D3). -/
def Obligations.ClearFirstAtMostOneFlag : Prop :=
  ∀ (k : Nat) (s t : State), s.config.cmpFlagUpdate = .clearFirst → Host.Core.run Sys2Proof.core k s = .next t →
    s.flags.e.toNat + s.flags.l.toNat + s.flags.g.toNat ≤ 1 →
    t.flags.e.toNat + t.flags.l.toNat + t.flags.g.toNat ≤ 1

/-! ## HALT, LDI, PRN -/

/-- 41_loop.md section 2 (HALT): encoding under the default map (log 1: PRESUMED values); the status becomes
Halted(HaltInstr, 0) and nothing else changes. That the pc stays is the spec's decision D15. -/
def Obligations.HaltRule : Prop :=
  ∀ s : State, decode OpcodeMap.standard [0x01#8] = .ok (.halt, []) ∧
    exec .halt s = .next { s with status := .halted .haltInstr 0x00#8 }

/-- 41_loop.md section 2 (LDI): encoding under the default map (log 1: PRESUMED values), result with every immediate,
what stays, exception (the spec's decisions D6, D7). -/
def Obligations.LdiRule : Prop :=
  ∀ (s : State) (a b : Byte),
    decode OpcodeMap.standard [0x82#8, a, b] = .ok (.ldi a b, []) ∧
    (∀ ha : a.toNat < 8, ∃ t, exec (.ldi a b) s = .next t ∧ t.reg ⟨a.toNat, ha⟩ = b ∧ t.pc = s.pc + 3 ∧
      (∀ r : Fin 8, r.val ≠ a.toNat → t.reg r = s.reg r) ∧
      t.flags = s.flags ∧ t.mem = s.mem ∧ t.status = s.status ∧ t.output = s.output) ∧
    (8 ≤ a.toNat → exec (.ldi a b) s = .next { s with status := .faulted .register a.toNat })

/-- 41_loop.md section 2 (PRN): encoding under the default map (log 1: PRESUMED values); the value is appended to the
output (the spec's decision D12) and only the pc changes besides; exception (D6, D7). -/
def Obligations.PrnRule : Prop :=
  ∀ (s : State) (a : Byte),
    decode OpcodeMap.standard [0x47#8, a] = .ok (.prn a, []) ∧
    (∀ ha : a.toNat < 8,
      exec (.prn a) s = .next { s with output := s.output ++ [s.reg ⟨a.toNat, ha⟩], pc := s.pc + 2 }) ∧
    (8 ≤ a.toNat → exec (.prn a) s = .next { s with status := .faulted .register a.toNat })

/-! ## Stack -/

/-- 42_stack.md section 1: the stack-pointer primitives. That both ends raise is the spec's decision D5. -/
def Obligations.StackPointerPrimitives : Prop :=
  ∀ s : State,
    (s.sp.toNat = 0 → spDec s = .error { kind := .stack, info := 0 }) ∧
    (1 ≤ s.sp.toNat → ∃ t, spDec s = .ok t ∧ t.sp.toNat = s.sp.toNat - 1 ∧
      (∀ r : Fin 8, r ≠ 7 → t.reg r = s.reg r) ∧ { t with regs := s.regs } = s) ∧
    (s.sp.toNat = 255 → spInc s = .error { kind := .stack, info := 255 }) ∧
    (s.sp.toNat ≤ 254 → ∃ t, spInc s = .ok t ∧ t.sp.toNat = s.sp.toNat + 1 ∧
      (∀ r : Fin 8, r ≠ 7 → t.reg r = s.reg r) ∧ { t with regs := s.regs } = s)

/-- 42_stack.md section 2 (PUSH): encoding under the default map (log 1: PRESUMED values). SP is decremented, then the
register is read (so PUSH R7 stores the new SP, the spec's inference from D20), then stored at the new SP. Raises:
the stack first (D5, D8), then the register (D7); neither changes anything but the status (D6). -/
def Obligations.PushRule : Prop :=
  ∀ (s : State) (a : Byte),
    decode OpcodeMap.standard [0x45#8, a] = .ok (.push a, []) ∧
    (∀ ha : a.toNat < 8, 1 ≤ s.sp.toNat → s.mem.wf → ∃ t, exec (.push a) s = .next t ∧
      t.sp.toNat = s.sp.toNat - 1 ∧
      t.mem.read (s.sp.toNat - 1) = (if a.toNat = 7 then t.sp else s.reg ⟨a.toNat, ha⟩) ∧
      (∀ x, x ≠ s.sp.toNat - 1 → t.mem.read x = s.mem.read x) ∧
      (∀ r : Fin 8, r ≠ 7 → t.reg r = s.reg r) ∧
      t.pc = s.pc + 2 ∧ t.flags = s.flags ∧ t.status = s.status ∧ t.output = s.output) ∧
    (s.sp.toNat = 0 → exec (.push a) s = .next { s with status := .faulted .stack 0 }) ∧
    (1 ≤ s.sp.toNat → 8 ≤ a.toNat → exec (.push a) s = .next { s with status := .faulted .register a.toNat })

/-- 42_stack.md section 2 (POP): encoding under the default map (log 1: PRESUMED values). The register gets the byte at
SP, then SP is incremented; POP R7 increments the popped value (the spec's inference from D20). Raises: the register
first (D7, D8), then the stack on the SP value to increment (D5); neither changes anything but the status (D6).
Memory is not changed. -/
def Obligations.PopRule : Prop :=
  ∀ (s : State) (a : Byte),
    decode OpcodeMap.standard [0x46#8, a] = .ok (.pop a, []) ∧
    (∀ ha : a.toNat < 8, a.toNat ≠ 7 → s.sp.toNat ≤ 254 → ∃ t, exec (.pop a) s = .next t ∧
      t.reg ⟨a.toNat, ha⟩ = s.mem.read s.sp.toNat ∧ t.sp.toNat = s.sp.toNat + 1 ∧
      (∀ r : Fin 8, r ≠ 7 → r.val ≠ a.toNat → t.reg r = s.reg r) ∧
      t.mem = s.mem ∧ t.pc = s.pc + 2 ∧ t.flags = s.flags ∧ t.status = s.status ∧ t.output = s.output) ∧
    (a.toNat = 7 → (s.mem.read s.sp.toNat).toNat ≤ 254 → ∃ t, exec (.pop a) s = .next t ∧
      t.sp.toNat = (s.mem.read s.sp.toNat).toNat + 1 ∧ (∀ r : Fin 8, r ≠ 7 → t.reg r = s.reg r) ∧
      t.mem = s.mem ∧ t.pc = s.pc + 2 ∧ t.flags = s.flags ∧ t.status = s.status ∧ t.output = s.output) ∧
    (8 ≤ a.toNat → exec (.pop a) s = .next { s with status := .faulted .register a.toNat }) ∧
    (a.toNat < 7 → s.sp.toNat = 255 → exec (.pop a) s = .next { s with status := .faulted .stack 255 }) ∧
    (a.toNat = 7 → (s.mem.read s.sp.toNat).toNat = 255 →
      exec (.pop a) s = .next { s with status := .faulted .stack 255 })

/-- 42_stack.md section 3: PUSH Ra then POP Ra with SP ≥ 1 restores every register, R7 included, advances the pc by 4
and leaves the pushed value below SP. The spec derives it from its PUSH and POP rules. -/
def Obligations.PushThenPopRestores : Prop :=
  ∀ (s : State) (a : Byte) (ha : a.toNat < 8), 1 ≤ s.sp.toNat → s.mem.wf →
    ∃ u t, exec (.push a) s = .next u ∧ exec (.pop a) u = .next t ∧
      (∀ r, t.reg r = s.reg r) ∧ t.pc = s.pc + 4 ∧
      (t.mem.read (s.sp.toNat - 1)).toNat =
        (if a.toNat = 7 then s.sp.toNat - 1 else (s.reg ⟨a.toNat, ha⟩).toNat) ∧
      (∀ x, x ≠ s.sp.toNat - 1 → t.mem.read x = s.mem.read x) ∧
      t.flags = s.flags ∧ t.status = s.status ∧ t.output = s.output

/-- 20_memory.md sections 2 and 3: a PUSH that lands in the next instruction's bytes is what the next fetch reads. The
spec derives it from its memory order. -/
def Obligations.PushedByteIsFetchedNext : Prop :=
  ∀ (s t : State) (a : Byte) (w : Latches), s.mem.wf → exec (.push a) s = .next t → t.status.isFaulted = false →
    ∀ ha : a.toNat < 8, fetch t = .ok w →
      (t.sp.toNat = t.pc → w.ir = t.reg ⟨a.toNat, ha⟩) ∧
      (t.sp.toNat = t.pc + 1 → w.operandA = t.reg ⟨a.toNat, ha⟩) ∧
      (t.sp.toNat = t.pc + 2 → w.operandB = t.reg ⟨a.toNat, ha⟩)

/-! ## Control transfer -/

/-- 43_control.md section 2 (CALL): encoding under the default map (log 1: PRESUMED values). The return address pc + 2
is stored at the decremented SP, then the pc takes the register's value (for CALL R7 the new SP, the spec's
inference from D20). A step has pc ≤ 253. Raises: the stack first (D5, D8), then the register (D7); neither changes
anything but the status (D6). -/
def Obligations.CallRule : Prop :=
  ∀ (s : State) (a : Byte),
    decode OpcodeMap.standard [0x50#8, a] = .ok (.call a, []) ∧
    (∀ ha : a.toNat < 8, 1 ≤ s.sp.toNat → s.pc ≤ 253 → s.mem.wf → ∃ t, exec (.call a) s = .next t ∧
      t.sp.toNat = s.sp.toNat - 1 ∧ (t.mem.read (s.sp.toNat - 1)).toNat = s.pc + 2 ∧
      (∀ x, x ≠ s.sp.toNat - 1 → t.mem.read x = s.mem.read x) ∧
      (∀ r : Fin 8, r ≠ 7 → t.reg r = s.reg r) ∧
      t.pc = (if a.toNat = 7 then s.sp.toNat - 1 else (s.reg ⟨a.toNat, ha⟩).toNat) ∧
      t.flags = s.flags ∧ t.status = s.status ∧ t.output = s.output) ∧
    (s.sp.toNat = 0 → exec (.call a) s = .next { s with status := .faulted .stack 0 }) ∧
    (1 ≤ s.sp.toNat → 8 ≤ a.toNat → exec (.call a) s = .next { s with status := .faulted .register a.toNat })

/-- 43_control.md section 2 (RET): encoding under the default map (log 1: PRESUMED values). The pc takes the byte at SP,
and SP is incremented; at SP = 255 it raises (D5) and only the status changes (D6). -/
def Obligations.RetRule : Prop :=
  ∀ s : State,
    decode OpcodeMap.standard [0x11#8] = .ok (.ret, []) ∧
    (s.sp.toNat ≤ 254 → ∃ t, exec .ret s = .next t ∧
      t.pc = (s.mem.read s.sp.toNat).toNat ∧ t.sp.toNat = s.sp.toNat + 1 ∧
      (∀ r : Fin 8, r ≠ 7 → t.reg r = s.reg r) ∧
      t.mem = s.mem ∧ t.flags = s.flags ∧ t.status = s.status ∧ t.output = s.output) ∧
    (s.sp.toNat = 255 → exec .ret s = .next { s with status := .faulted .stack 255 })

/-- 43_control.md section 2 (JMP): encoding under the default map (log 1: PRESUMED values), target, nothing else
changed, exception (the spec's decisions D6, D7). -/
def Obligations.JmpRule : Prop :=
  ∀ (s : State) (a : Byte),
    decode OpcodeMap.standard [0x54#8, a] = .ok (.jmp a, []) ∧
    (∀ ha : a.toNat < 8, exec (.jmp a) s = .next { s with pc := (s.reg ⟨a.toNat, ha⟩).toNat }) ∧
    (8 ≤ a.toNat → exec (.jmp a) s = .next { s with status := .faulted .register a.toNat })

/-- 43_control.md section 2 (JEQ): encoding under the default map (log 1: PRESUMED values). Taken exactly when E is 1;
the register is read, and its index checked, only then (the spec's decision D7). -/
def Obligations.JeqRule : Prop :=
  ∀ (s : State) (a : Byte),
    decode OpcodeMap.standard [0x55#8, a] = .ok (.jeq a, []) ∧
    (s.flags.e = true → ∀ ha : a.toNat < 8,
      exec (.jeq a) s = .next { s with pc := (s.reg ⟨a.toNat, ha⟩).toNat }) ∧
    (s.flags.e = false → exec (.jeq a) s = .next { s with pc := s.pc + 2 }) ∧
    (s.flags.e = true → 8 ≤ a.toNat → exec (.jeq a) s = .next { s with status := .faulted .register a.toNat })

/-- 43_control.md section 2 (JNE): encoding under the default map (log 1: PRESUMED values). Taken exactly when E is 0;
the register is read, and its index checked, only then (the spec's decision D7). -/
def Obligations.JneRule : Prop :=
  ∀ (s : State) (a : Byte),
    decode OpcodeMap.standard [0x56#8, a] = .ok (.jne a, []) ∧
    (s.flags.e = false → ∀ ha : a.toNat < 8,
      exec (.jne a) s = .next { s with pc := (s.reg ⟨a.toNat, ha⟩).toNat }) ∧
    (s.flags.e = true → exec (.jne a) s = .next { s with pc := s.pc + 2 }) ∧
    (s.flags.e = false → 8 ≤ a.toNat → exec (.jne a) s = .next { s with status := .faulted .register a.toNat })

/-- 43_control.md section 3: a CALL, then a RET in any state that has the SP the CALL left and the byte there untouched,
returns to pc_call + 2 with the SP from before the CALL. The spec derives it from its CALL and RET rules. -/
def Obligations.CallThenRetReturns : Prop :=
  ∀ (s : State) (a : Byte), a.toNat < 8 → 1 ≤ s.sp.toNat → s.pc ≤ 253 → s.mem.wf →
    ∃ u, exec (.call a) s = .next u ∧
      ∀ v : State, v.sp = u.sp → v.mem.read v.sp.toNat = u.mem.read u.sp.toNat →
        ∃ t, exec .ret v = .next t ∧ t.pc = s.pc + 2 ∧ t.sp = s.sp ∧ t.status = v.status

/-- 10_state.md section 2 (the table of new pcs), 41_loop.md section 1 and 43_control.md section 2, for all thirteen
instructions. That CALL R7 reads SP after the decrement is the spec's decision D20 (DEDUCED, log 13); that HALT leaves
the pc is its D15 (DEDUCED, log 11). -/
def Obligations.PcAdvance : Prop :=
  ∀ (s t : State) (i : Instr), s.status = .running → exec i s = .next t → t.status.isFaulted = false →
    (i.mnemonic ∈ [Mnemonic.ldi, .prn, .add, .mul, .cmp, .push, .pop] → t.pc = s.pc + 1 + i.mnemonic.operandCount) ∧
    (i.mnemonic ∈ [Mnemonic.ldi, .add, .mul, .cmp] → t.pc = s.pc + 3) ∧
    (i.mnemonic ∈ [Mnemonic.prn, .push, .pop] → t.pc = s.pc + 2) ∧
    (i = .ret → t.pc = (s.mem.read s.sp.toNat).toNat) ∧
    (∀ a, i = .call a → ∃ ha : a.toNat < 8, t.pc = (t.reg ⟨a.toNat, ha⟩).toNat) ∧
    (∀ a, i = .jmp a → ∃ ha : a.toNat < 8, t.pc = (s.reg ⟨a.toNat, ha⟩).toNat) ∧
    (∀ a, i = .jeq a → s.flags.e = true → ∃ ha : a.toNat < 8, t.pc = (s.reg ⟨a.toNat, ha⟩).toNat) ∧
    (∀ a, i = .jeq a → s.flags.e = false → t.pc = s.pc + 2) ∧
    (∀ a, i = .jne a → s.flags.e = false → ∃ ha : a.toNat < 8, t.pc = (s.reg ⟨a.toNat, ha⟩).toNat) ∧
    (∀ a, i = .jne a → s.flags.e = true → t.pc = s.pc + 2) ∧
    (i = .halt → t.pc = s.pc)

/-! ## Frames -/

/-- 10_state.md R30, whole: only CMP writes the flags; every other instruction, and the unknown-opcode halt (and a
faulting step), leaves all three unchanged. -/
def Obligations.OnlyCmpWritesFlags : Prop :=
  (∀ (s t : State) (i : Instr), exec i s = .next t → i.mnemonic ≠ .cmp → t.flags = s.flags) ∧
  (∀ s t : State, step s = .next t →
    (s.pc ≤ 253 → ∀ a b rest, decode s.config.opcodeMap
      [s.mem.read s.pc, s.mem.read (s.pc + 1), s.mem.read (s.pc + 2)] ≠ .ok (.cmp a b, rest)) → t.flags = s.flags)

/-- 10_state.md section 1 (register access by instruction): each instruction leaves every register unchanged but its
destination and, for the stack instructions, SP. The spec derives its table from the pseudocode. -/
def Obligations.RegisterFrame : Prop :=
  ∀ (s t : State) (a b : Byte) (r : Fin 8),
    ((exec (.ldi a b) s = .next t ∨ exec (.add a b) s = .next t ∨ exec (.mul a b) s = .next t) →
      r.val ≠ a.toNat → t.reg r = s.reg r) ∧
    (exec (.pop a) s = .next t → r.val ≠ a.toNat → r ≠ 7 → t.reg r = s.reg r) ∧
    ((exec (.push a) s = .next t ∨ exec (.call a) s = .next t ∨ exec .ret s = .next t) → r ≠ 7 → t.reg r = s.reg r) ∧
    ((exec .halt s = .next t ∨ exec (.prn a) s = .next t ∨ exec (.cmp a b) s = .next t ∨ exec (.jmp a) s = .next t ∨
        exec (.jeq a) s = .next t ∨ exec (.jne a) s = .next t) → t.reg r = s.reg r)

/-- 20_memory.md section 1 (which operations reach memory): an instruction other than PUSH and CALL leaves every byte of
memory unchanged. -/
def Obligations.MemoryFrameOfNonStoring : Prop :=
  ∀ (s t : State) (i : Instr), exec i s = .next t → i.mnemonic ≠ .push → i.mnemonic ≠ .call →
    ∀ x, t.mem.read x = s.mem.read x

/-- 20_memory.md section 1 (which operations reach memory): PUSH and CALL store one byte, at the SP that `spDec` gives
them, and leave every other byte unchanged; where `spDec` raises they store nothing. -/
def Obligations.MemoryFrameOfPushAndCall : Prop :=
  ∀ (s t : State) (a : Byte), (exec (.push a) s = .next t ∨ exec (.call a) s = .next t) →
    (∀ u, spDec s = .ok u → ∀ x, x ≠ u.sp.toNat → t.mem.read x = s.mem.read x) ∧
    (∀ e, spDec s = .error e → ∀ x, t.mem.read x = s.mem.read x)

/-- 10_state.md sections 4 and 5: an instruction other than PRN leaves the output stream unchanged, and PRN only appends
at most one byte; an instruction other than HALT leaves the status unchanged or faults; no instruction writes the
configuration, nor the fetch latches (a step does). -/
def Obligations.OutputStatusAndConfigFrame : Prop :=
  ∀ (s t : State) (i : Instr), exec i s = .next t →
    (i.mnemonic ≠ .prn → t.output = s.output) ∧ (t.output = s.output ∨ ∃ v, t.output = s.output ++ [v]) ∧
    (i.mnemonic ≠ .halt → t.status = s.status ∨ t.status.isFaulted = true) ∧
    t.config = s.config ∧ t.latches = s.latches

/-! ## Faults and halts -/

/-- 60_exceptions.md section 2 and 00_scope.md section 5: a step that faults changes the status and nothing else, the
fetch latches included (the spec's decision D6; log 5). -/
def Obligations.FaultsArePrecise : Prop :=
  ∀ s t : State, step s = .next t → t.status.isFaulted = true → t = { s with status := t.status }

/-- 60_exceptions.md section 1 (the three kinds): which step raises which kind, and with what info. Memory comes only
from the fetch; Register only with an index of 8 or more that the instruction names; Stack only from PUSH and CALL
at 0 and POP and RET at 255 (the spec's decisions D5, D7, D13). -/
def Obligations.FaultKindsAndTheirRaisers : Prop :=
  ∀ (s t : State) (n : Nat), step s = .next t →
    (t.status = .faulted .memory n → 254 ≤ s.pc ∧ n = max s.pc 256) ∧
    (t.status = .faulted .register n → s.pc ≤ 253 ∧ 8 ≤ n ∧ ∃ i rest,
      decode s.config.opcodeMap [s.mem.read s.pc, s.mem.read (s.pc + 1), s.mem.read (s.pc + 2)] = .ok (i, rest) ∧
      n ∈ i.registerOperands.map BitVec.toNat) ∧
    (t.status = .faulted .stack n → s.pc ≤ 253 ∧ ∃ i rest,
      decode s.config.opcodeMap [s.mem.read s.pc, s.mem.read (s.pc + 1), s.mem.read (s.pc + 2)] = .ok (i, rest) ∧
      ((n = 0 ∧ s.sp.toNat = 0 ∧ (i.mnemonic = .push ∨ i.mnemonic = .call)) ∨
       (n = 255 ∧ (i.mnemonic = .pop ∨ i.mnemonic = .ret))))

/-- 41_loop.md sections 1 and 3: a step ends in Halted only by HALT or by an opcode byte outside the map, with the pc
unchanged (D15), and only HALT makes a run successful (D14). -/
def Obligations.HaltedOnlyByHaltOrUnknownOpcode : Prop :=
  ∀ s t : State, step s = .next t →
    (∀ info, t.status = .halted .haltInstr info → info = 0x00#8 ∧ t.pc = s.pc ∧ s.pc ≤ 253 ∧
      s.mem.read s.pc = s.config.opcodeMap.halt) ∧
    (∀ info, t.status = .halted .unknownOpcode info → info = s.mem.read s.pc ∧ t.pc = s.pc ∧ s.pc ≤ 253 ∧
      info ∉ s.config.opcodeMap.bytes) ∧
    (t.successful = true → s.mem.read s.pc = s.config.opcodeMap.halt)

/-- 60_exceptions.md section 1 (status encoding; the spec's decision D13) and 10_state.md section 3 (the flag word, from
general knowledge, D4): what the host reads. -/
def Obligations.HostViewEncodings : Prop :=
  (∀ info : Byte, ∀ n : Nat,
    Status.outputs .running = ⟨0, 0, 0⟩ ∧
    Status.outputs (.halted .haltInstr 0x00#8) = ⟨1, 1, 0⟩ ∧
    Status.outputs (.halted .unknownOpcode info) = ⟨1, 2, info.toNat⟩ ∧
    Status.outputs (.faulted .memory n) = ⟨2, 3, n⟩ ∧
    Status.outputs (.faulted .register n) = ⟨2, 4, n⟩ ∧
    Status.outputs (.faulted .stack n) = ⟨2, 5, n⟩) ∧
  (∀ f : Flags, (f.word.getLsbD 0 = f.e) ∧ (f.word.getLsbD 1 = f.g) ∧ (f.word.getLsbD 2 = f.l) ∧
    f.word.toNat < 8)

/-! ## Whole-machine claims -/

/-- The machine's invariant (memory in canonical form, pc ≤ 256, a legal status, an injective opcode map) is kept by
every step, from every state that has it, reachable or not (10_state.md section 2, 60_exceptions.md section 1). -/
def Obligations.StepKeepsInvariant : Prop :=
  ∀ s t : State, s.Inv → step s = .next t → t.Inv

/-- The machine's invariant holds after reset, and after loading any image that fits, under every configuration whose
opcode map is injective (70_reset_and_hazards.md sections 1 and 2). -/
def Obligations.BootHasInvariant : Prop :=
  State.reset.Inv ∧ ∀ (c : Config) (image : List Byte) (t : State), c.wf = true → boot c image = .ok t → t.Inv

/-- From any state with the invariant, a memory fault reports address 256, over any run (10_state.md section 2 gives the
pc range 0..256; the spec derives it). -/
def Obligations.MemoryFaultsReportAddress256 : Prop :=
  ∀ (k : Nat) (s t : State) (n : Nat), s.Inv → s.status = .running → Host.Core.run Sys2Proof.core k s = .next t →
    t.status = .faulted .memory n → n = 256

/-- 10_state.md section 3: L and G have no influence on anything. Two states that differ only in L and G run alike for
any number of steps, and still differ only in L and G, under both values of `CMP_FLAG_UPDATE`. The spec derives it
from the dispatch table. -/
def Obligations.LessAndGreaterInfluenceNothing : Prop :=
  let forget (s : State) : State := { s with flags := { s.flags with l := false, g := false } }
  ∀ (k : Nat) (s s' : State), forget s = forget s' →
    (∀ t, Host.Core.run Sys2Proof.core k s = .next t →
      ∃ t', Host.Core.run Sys2Proof.core k s' = .next t' ∧ forget t = forget t') ∧
    (∀ f, Host.Core.run Sys2Proof.core k s = .fault f → Host.Core.run Sys2Proof.core k s' = .fault f)

/-- 10_state.md section 5: what the fetch latches hold before a step has no influence on anything: two states that
differ only there run alike for any number of steps. So the model's choice of their reset value (log 4) shows
nowhere but in the latches. -/
def Obligations.OldLatchesInfluenceNothing : Prop :=
  ∀ (k : Nat) (s : State) (w w' : Latches),
    (∀ t, Host.Core.run Sys2Proof.core k { s with latches := w } = .next t →
      ∃ t', Host.Core.run Sys2Proof.core k { s with latches := w' } = .next t' ∧
        { t with latches := w } = { t' with latches := w }) ∧
    (∀ f, Host.Core.run Sys2Proof.core k { s with latches := w } = .fault f →
      Host.Core.run Sys2Proof.core k { s with latches := w' } = .fault f)

/-- 41_loop.md section 1: one step of a running machine that neither faults nor halts leaves the fetch latches holding
the bytes it fetched, so no step reads a latch of an earlier one (10_state.md section 5). -/
def Obligations.RunningStepLatchesItsWindow : Prop :=
  ∀ s t : State, step s = .next t → t.status.isFaulted = false →
    t.latches = ⟨s.mem.read s.pc, s.mem.read (s.pc + 1), s.mem.read (s.pc + 2)⟩
end

