-- ==== Sys2Proof/Laws/Decode.lean ====
section
/-! SUPPORT. The opcode table read both ways. -/

namespace Sys2Proof

/-- A byte that the lookup finds is the opcode of the mnemonic it answers. -/
theorem OpcodeMap.byteOf_of_lookup {m : OpcodeMap} {b : Byte} {mn : Mnemonic} (h : m.lookup b = some mn) :
    m.byteOf mn = b := by
  simpa using List.find?_some h

theorem Mnemonic.mem_all (mn : Mnemonic) : mn ∈ Mnemonic.all := by
  cases mn <;> decide

theorem OpcodeMap.bytes_eq (m : OpcodeMap) : m.bytes = Mnemonic.all.map m.byteOf := rfl

/-- In an injective map, two mnemonics with one opcode are the same. -/
theorem OpcodeMap.byteOf_injective {m : OpcodeMap} (h : m.wf = true) {x y : Mnemonic}
    (hxy : m.byteOf x = m.byteOf y) : x = y :=
  List.inj_on_of_nodup_map (m.bytes_eq ▸ of_decide_eq_true h) x.mem_all y.mem_all hxy

/-- In an injective map, the lookup finds each mnemonic by its opcode. -/
theorem OpcodeMap.lookup_byteOf {m : OpcodeMap} (h : m.wf = true) (mn : Mnemonic) :
    m.lookup (m.byteOf mn) = some mn := by
  cases hl : m.lookup (m.byteOf mn) with
  | some x => rw [OpcodeMap.byteOf_injective h (OpcodeMap.byteOf_of_lookup hl)]
  | none =>
    have := List.find?_eq_none.mp hl mn mn.mem_all
    simp at this

/-- The lookup finds nothing exactly for the bytes that are no opcode (30_encoding.md R70). -/
theorem OpcodeMap.lookup_eq_none {m : OpcodeMap} {b : Byte} : m.lookup b = none ↔ b ∉ m.bytes := by
  simp [OpcodeMap.lookup, m.bytes_eq, Mnemonic.mem_all]

end Sys2Proof
end

