-- ==== Sys2Proof/Laws/Memory.lean ====
section
/-! SUPPORT. The memory operations: read after write, the frame of a write, the canonical form. -/

namespace Sys2Proof.Machine.Memory

@[simp] theorem read_nil (a : Nat) : Memory.read [] a = Memory.unlisted := rfl

theorem read_cons (c : Host.Cell) (m : Memory) (a : Nat) :
    Memory.read (c :: m) a = if a = c.1 then c.2 else Memory.read m a := rfl

/-- An address that no cell lists reads as an unlisted cell. -/
theorem read_of_not_listed {m : Memory} {a : Nat} (h : ∀ c ∈ m, c.1 ≠ a) : m.read a = Memory.unlisted := by
  induction m with
  | nil => rfl
  | cons c m ih =>
    have hc : a ≠ c.1 := Ne.symm (h c (by simp))
    rw [read_cons, if_neg hc]
    exact ih fun d hd => h d (by simp [hd])

theorem read_cons_other {a x : Nat} (h : x ≠ a) (v : Byte) (m : Memory) :
    (Memory.cons a v m).read x = m.read x := by
  unfold Memory.cons
  split
  · rfl
  · rw [read_cons, if_neg h]

/-- A write leaves every other address alone, in any memory. -/
theorem read_write_other {a x : Nat} (h : x ≠ a) (m : Memory) (v : Byte) : (m.write a v).read x = m.read x := by
  induction m with
  | nil => exact read_cons_other h v []
  | cons c m ih =>
    simp only [Memory.write]
    split
    · exact read_cons_other h v _
    · split
      · next hac => rw [read_cons_other h, read_cons, if_neg (hac ▸ h)]
      · rw [read_cons, read_cons, ih]

theorem read_cons_same {a : Nat} {m : Memory} (h : ∀ c ∈ m, c.1 ≠ a) (v : Byte) :
    (Memory.cons a v m).read a = v := by
  unfold Memory.cons
  split
  · next hv => rw [hv, read_of_not_listed h]
  · rw [read_cons, if_pos rfl]

theorem wf_tail {c : Host.Cell} {m : Memory} (h : Memory.wf (c :: m)) : Memory.wf m :=
  ⟨(List.pairwise_cons.mp h.1).2, fun d hd => h.2 d (List.mem_cons_of_mem c hd)⟩

theorem wf_head_lt {c : Host.Cell} {m : Memory} (h : Memory.wf (c :: m)) : ∀ d ∈ m, c.1 < d.1 :=
  (List.pairwise_cons.mp h.1).1

/-- A read after a write to the same address gives the byte written. -/
theorem read_write_same {m : Memory} (h : m.wf) (a : Nat) (v : Byte) : (m.write a v).read a = v := by
  induction m with
  | nil => exact read_cons_same (by simp) v
  | cons c m ih =>
    have hlt := wf_head_lt h
    simp only [Memory.write]
    split
    · next hac =>
      refine read_cons_same (fun d hd => ?_) v
      rcases List.mem_cons.mp hd with rfl | hd
      · exact Nat.ne_of_gt hac
      · exact Nat.ne_of_gt (Nat.lt_trans hac (hlt d hd))
    · split
      · next hac => exact read_cons_same (fun d hd => Nat.ne_of_gt (hac ▸ hlt d hd)) v
      · next hac => rw [read_cons, if_neg hac, ih (wf_tail h)]

/-- Both facts about a write at once. -/
theorem read_write {m : Memory} (h : m.wf) (a x : Nat) (v : Byte) :
    (m.write a v).read x = if x = a then v else m.read x := by
  split
  · next hx => rw [hx, read_write_same h]
  · next hx => exact read_write_other hx m v

theorem cons_wf {a : Nat} {v : Byte} {m : Memory} (h : m.wf) (ha : a < 256) (hlt : ∀ c ∈ m, a < c.1) :
    (Memory.cons a v m).wf := by
  unfold Memory.cons
  split
  · exact h
  · next hv =>
    refine ⟨List.pairwise_cons.mpr ⟨hlt, h.1⟩, fun c hc => ?_⟩
    rcases List.mem_cons.mp hc with rfl | hc
    · exact ⟨ha, hv⟩
    · exact h.2 c hc

/-- The addresses a write lists are the ones listed before and the one written. -/
theorem mem_write {m : Memory} {a : Nat} {v : Byte} {c : Host.Cell} (hc : c ∈ m.write a v) : c.1 = a ∨ c ∈ m := by
  have mem_cons {n : Memory} (h : c ∈ Memory.cons a v n) : c.1 = a ∨ c ∈ n := by
    unfold Memory.cons at h
    split at h
    · exact .inr h
    · rcases List.mem_cons.mp h with rfl | h
      · exact .inl rfl
      · exact .inr h
  induction m with
  | nil => exact mem_cons hc
  | cons d m ih =>
    simp only [Memory.write] at hc
    split at hc
    · exact mem_cons hc
    · split at hc
      · exact (mem_cons hc).imp_right (List.mem_cons_of_mem d)
      · rcases List.mem_cons.mp hc with rfl | hc
        · exact .inr (by simp)
        · exact (ih hc).imp_right (List.mem_cons_of_mem d)

/-- A write inside the address space keeps the canonical form. -/
theorem write_wf {m : Memory} (h : m.wf) {a : Nat} (ha : a < 256) (v : Byte) : (m.write a v).wf := by
  induction m with
  | nil => exact cons_wf h ha (by simp)
  | cons c m ih =>
    have hlt := wf_head_lt h
    simp only [Memory.write]
    split
    · next hac =>
      refine cons_wf h ha fun d hd => ?_
      rcases List.mem_cons.mp hd with rfl | hd
      · exact hac
      · exact Nat.lt_trans hac (hlt d hd)
    · next hle =>
      split
      · next hac => exact cons_wf (wf_tail h) ha fun d hd => hac ▸ hlt d hd
      · next hne =>
        have hw := ih (wf_tail h)
        refine ⟨List.pairwise_cons.mpr ⟨fun d hd => ?_, hw.1⟩, fun d hd => ?_⟩
        · rcases mem_write hd with hd | hd
          · omega
          · exact hlt d hd
        · rcases List.mem_cons.mp hd with hd | hd
          · exact hd ▸ h.2 c (by simp)
          · exact hw.2 d hd

/-- Placing bytes inside the address space keeps the canonical form. -/
theorem place_wf {m : Memory} (h : m.wf) {a : Nat} {vs : List Byte} (ha : a + vs.length ≤ 256) :
    (m.place a vs).wf := by
  induction vs generalizing m a with
  | nil => exact h
  | cons v vs ih =>
    simp only [List.length_cons] at ha
    exact ih (write_wf h (by omega) v) (by omega)

theorem nil_wf : Memory.wf [] := by decide

end Sys2Proof.Machine.Memory
end

