-- ==== Sys2Proof/Laws/State.lean ====
section
/-! SUPPORT. What each named update of the state does to each field, one lemma a pair, so that no later proof unfolds
a record update; and the register read of each. -/

namespace Sys2Proof.Machine.State

variable (s : State)

@[simp] theorem setReg_regs (r : Fin 8) (v : Byte) : (s.setReg r v).regs = s.regs.set r v := rfl
@[simp] theorem setReg_pc (r : Fin 8) (v : Byte) : (s.setReg r v).pc = s.pc := rfl
@[simp] theorem setReg_flags (r : Fin 8) (v : Byte) : (s.setReg r v).flags = s.flags := rfl
@[simp] theorem setReg_mem (r : Fin 8) (v : Byte) : (s.setReg r v).mem = s.mem := rfl
@[simp] theorem setReg_status (r : Fin 8) (v : Byte) : (s.setReg r v).status = s.status := rfl
@[simp] theorem setReg_output (r : Fin 8) (v : Byte) : (s.setReg r v).output = s.output := rfl
@[simp] theorem setReg_latches (r : Fin 8) (v : Byte) : (s.setReg r v).latches = s.latches := rfl
@[simp] theorem setReg_config (r : Fin 8) (v : Byte) : (s.setReg r v).config = s.config := rfl

@[simp] theorem setSp_regs (v : Byte) : (s.setSp v).regs = s.regs.set 7 v := rfl
@[simp] theorem setSp_pc (v : Byte) : (s.setSp v).pc = s.pc := rfl
@[simp] theorem setSp_flags (v : Byte) : (s.setSp v).flags = s.flags := rfl
@[simp] theorem setSp_mem (v : Byte) : (s.setSp v).mem = s.mem := rfl
@[simp] theorem setSp_status (v : Byte) : (s.setSp v).status = s.status := rfl
@[simp] theorem setSp_output (v : Byte) : (s.setSp v).output = s.output := rfl
@[simp] theorem setSp_latches (v : Byte) : (s.setSp v).latches = s.latches := rfl
@[simp] theorem setSp_config (v : Byte) : (s.setSp v).config = s.config := rfl

@[simp] theorem setPc_regs (n : Nat) : (s.setPc n).regs = s.regs := rfl
@[simp] theorem setPc_pc (n : Nat) : (s.setPc n).pc = n := rfl
@[simp] theorem setPc_flags (n : Nat) : (s.setPc n).flags = s.flags := rfl
@[simp] theorem setPc_mem (n : Nat) : (s.setPc n).mem = s.mem := rfl
@[simp] theorem setPc_status (n : Nat) : (s.setPc n).status = s.status := rfl
@[simp] theorem setPc_output (n : Nat) : (s.setPc n).output = s.output := rfl
@[simp] theorem setPc_latches (n : Nat) : (s.setPc n).latches = s.latches := rfl
@[simp] theorem setPc_config (n : Nat) : (s.setPc n).config = s.config := rfl
@[simp] theorem setPc_reg (n : Nat) (q : Fin 8) : (s.setPc n).reg q = s.reg q := rfl
@[simp] theorem setPc_sp (n : Nat) : (s.setPc n).sp = s.sp := rfl

@[simp] theorem advance_regs (n : Nat) : (s.advance n).regs = s.regs := rfl
@[simp] theorem advance_pc (n : Nat) : (s.advance n).pc = s.pc + n := rfl
@[simp] theorem advance_flags (n : Nat) : (s.advance n).flags = s.flags := rfl
@[simp] theorem advance_mem (n : Nat) : (s.advance n).mem = s.mem := rfl
@[simp] theorem advance_status (n : Nat) : (s.advance n).status = s.status := rfl
@[simp] theorem advance_output (n : Nat) : (s.advance n).output = s.output := rfl
@[simp] theorem advance_latches (n : Nat) : (s.advance n).latches = s.latches := rfl
@[simp] theorem advance_config (n : Nat) : (s.advance n).config = s.config := rfl
@[simp] theorem advance_reg (n : Nat) (q : Fin 8) : (s.advance n).reg q = s.reg q := rfl
@[simp] theorem advance_sp (n : Nat) : (s.advance n).sp = s.sp := rfl

@[simp] theorem setFlags_regs (f : Flags) : (s.setFlags f).regs = s.regs := rfl
@[simp] theorem setFlags_pc (f : Flags) : (s.setFlags f).pc = s.pc := rfl
@[simp] theorem setFlags_flags (f : Flags) : (s.setFlags f).flags = f := rfl
@[simp] theorem setFlags_mem (f : Flags) : (s.setFlags f).mem = s.mem := rfl
@[simp] theorem setFlags_status (f : Flags) : (s.setFlags f).status = s.status := rfl
@[simp] theorem setFlags_output (f : Flags) : (s.setFlags f).output = s.output := rfl
@[simp] theorem setFlags_latches (f : Flags) : (s.setFlags f).latches = s.latches := rfl
@[simp] theorem setFlags_config (f : Flags) : (s.setFlags f).config = s.config := rfl
@[simp] theorem setFlags_reg (f : Flags) (q : Fin 8) : (s.setFlags f).reg q = s.reg q := rfl
@[simp] theorem setFlags_sp (f : Flags) : (s.setFlags f).sp = s.sp := rfl

@[simp] theorem setMem_regs (m : Memory) : (s.setMem m).regs = s.regs := rfl
@[simp] theorem setMem_pc (m : Memory) : (s.setMem m).pc = s.pc := rfl
@[simp] theorem setMem_flags (m : Memory) : (s.setMem m).flags = s.flags := rfl
@[simp] theorem setMem_mem (m : Memory) : (s.setMem m).mem = m := rfl
@[simp] theorem setMem_status (m : Memory) : (s.setMem m).status = s.status := rfl
@[simp] theorem setMem_output (m : Memory) : (s.setMem m).output = s.output := rfl
@[simp] theorem setMem_latches (m : Memory) : (s.setMem m).latches = s.latches := rfl
@[simp] theorem setMem_config (m : Memory) : (s.setMem m).config = s.config := rfl
@[simp] theorem setMem_reg (m : Memory) (q : Fin 8) : (s.setMem m).reg q = s.reg q := rfl
@[simp] theorem setMem_sp (m : Memory) : (s.setMem m).sp = s.sp := rfl

@[simp] theorem setStatus_regs (st : Status) : (s.setStatus st).regs = s.regs := rfl
@[simp] theorem setStatus_pc (st : Status) : (s.setStatus st).pc = s.pc := rfl
@[simp] theorem setStatus_flags (st : Status) : (s.setStatus st).flags = s.flags := rfl
@[simp] theorem setStatus_mem (st : Status) : (s.setStatus st).mem = s.mem := rfl
@[simp] theorem setStatus_status (st : Status) : (s.setStatus st).status = st := rfl
@[simp] theorem setStatus_output (st : Status) : (s.setStatus st).output = s.output := rfl
@[simp] theorem setStatus_latches (st : Status) : (s.setStatus st).latches = s.latches := rfl
@[simp] theorem setStatus_config (st : Status) : (s.setStatus st).config = s.config := rfl
@[simp] theorem setStatus_reg (st : Status) (q : Fin 8) : (s.setStatus st).reg q = s.reg q := rfl
@[simp] theorem setStatus_sp (st : Status) : (s.setStatus st).sp = s.sp := rfl

@[simp] theorem emit_regs (v : Byte) : (s.emit v).regs = s.regs := rfl
@[simp] theorem emit_pc (v : Byte) : (s.emit v).pc = s.pc := rfl
@[simp] theorem emit_flags (v : Byte) : (s.emit v).flags = s.flags := rfl
@[simp] theorem emit_mem (v : Byte) : (s.emit v).mem = s.mem := rfl
@[simp] theorem emit_status (v : Byte) : (s.emit v).status = s.status := rfl
@[simp] theorem emit_output (v : Byte) : (s.emit v).output = s.output ++ [v] := rfl
@[simp] theorem emit_latches (v : Byte) : (s.emit v).latches = s.latches := rfl
@[simp] theorem emit_config (v : Byte) : (s.emit v).config = s.config := rfl
@[simp] theorem emit_reg (v : Byte) (q : Fin 8) : (s.emit v).reg q = s.reg q := rfl
@[simp] theorem emit_sp (v : Byte) : (s.emit v).sp = s.sp := rfl

@[simp] theorem setLatches_regs (w : Latches) : (s.setLatches w).regs = s.regs := rfl
@[simp] theorem setLatches_pc (w : Latches) : (s.setLatches w).pc = s.pc := rfl
@[simp] theorem setLatches_flags (w : Latches) : (s.setLatches w).flags = s.flags := rfl
@[simp] theorem setLatches_mem (w : Latches) : (s.setLatches w).mem = s.mem := rfl
@[simp] theorem setLatches_status (w : Latches) : (s.setLatches w).status = s.status := rfl
@[simp] theorem setLatches_output (w : Latches) : (s.setLatches w).output = s.output := rfl
@[simp] theorem setLatches_latches (w : Latches) : (s.setLatches w).latches = w := rfl
@[simp] theorem setLatches_config (w : Latches) : (s.setLatches w).config = s.config := rfl
@[simp] theorem setLatches_reg (w : Latches) (q : Fin 8) : (s.setLatches w).reg q = s.reg q := rfl
@[simp] theorem setLatches_sp (w : Latches) : (s.setLatches w).sp = s.sp := rfl

@[simp] theorem takeFault_regs (e : OutOfBounds) : (s.takeFault e).regs = s.regs := rfl
@[simp] theorem takeFault_pc (e : OutOfBounds) : (s.takeFault e).pc = s.pc := rfl
@[simp] theorem takeFault_flags (e : OutOfBounds) : (s.takeFault e).flags = s.flags := rfl
@[simp] theorem takeFault_mem (e : OutOfBounds) : (s.takeFault e).mem = s.mem := rfl
@[simp] theorem takeFault_status (e : OutOfBounds) : (s.takeFault e).status = .faulted e.kind e.info := rfl
@[simp] theorem takeFault_output (e : OutOfBounds) : (s.takeFault e).output = s.output := rfl
@[simp] theorem takeFault_latches (e : OutOfBounds) : (s.takeFault e).latches = s.latches := rfl
@[simp] theorem takeFault_config (e : OutOfBounds) : (s.takeFault e).config = s.config := rfl
@[simp] theorem takeFault_reg (e : OutOfBounds) (q : Fin 8) : (s.takeFault e).reg q = s.reg q := rfl
@[simp] theorem takeFault_sp (e : OutOfBounds) : (s.takeFault e).sp = s.sp := rfl

@[simp] theorem halt_regs (c : HaltCause) (i : Byte) : (s.halt c i).regs = s.regs := rfl
@[simp] theorem halt_pc (c : HaltCause) (i : Byte) : (s.halt c i).pc = s.pc := rfl
@[simp] theorem halt_flags (c : HaltCause) (i : Byte) : (s.halt c i).flags = s.flags := rfl
@[simp] theorem halt_mem (c : HaltCause) (i : Byte) : (s.halt c i).mem = s.mem := rfl
@[simp] theorem halt_status (c : HaltCause) (i : Byte) : (s.halt c i).status = .halted c i := rfl
@[simp] theorem halt_output (c : HaltCause) (i : Byte) : (s.halt c i).output = s.output := rfl
@[simp] theorem halt_latches (c : HaltCause) (i : Byte) : (s.halt c i).latches = s.latches := rfl
@[simp] theorem halt_config (c : HaltCause) (i : Byte) : (s.halt c i).config = s.config := rfl
@[simp] theorem halt_reg (c : HaltCause) (i : Byte) (q : Fin 8) : (s.halt c i).reg q = s.reg q := rfl
@[simp] theorem halt_sp (c : HaltCause) (i : Byte) : (s.halt c i).sp = s.sp := rfl

/-- A register reads as what was last written to it; every other register is as it was. -/
@[simp] theorem setReg_reg (r q : Fin 8) (v : Byte) : (s.setReg r v).reg q = if q = r then v else s.reg q := by
  simp only [State.reg, State.setReg, Fin.getElem_fin, Vector.getElem_set, Fin.ext_iff, eq_comm]

@[simp] theorem setSp_reg (q : Fin 8) (v : Byte) : (s.setSp v).reg q = if q = 7 then v else s.reg q :=
  s.setReg_reg 7 q v

@[simp] theorem setSp_sp (v : Byte) : (s.setSp v).sp = v := by
  simp [State.sp]

@[simp] theorem setReg_sp (r : Fin 8) (v : Byte) : (s.setReg r v).sp = if 7 = r then v else s.sp := by
  simp [State.sp]

theorem sp_eq_reg : s.sp = s.reg 7 := rfl

/-- Two register files with the same registers are the same. -/
theorem regs_ext {s t : State} (h : ∀ r, t.reg r = s.reg r) : t.regs = s.regs :=
  Vector.ext fun i hi => h ⟨i, hi⟩

@[simp] theorem commitLatches_status (w : Latches) : (s.commitLatches w).status = s.status := by
  unfold State.commitLatches; split <;> rfl

end Sys2Proof.Machine.State
end

