-- ==== Sys2Proof/Laws/Ops.lean ====
section
/-! SUPPORT. One lemma for each shared operation: everything it can do. -/

namespace Sys2Proof.Machine

/-! ## Running on a working copy -/

theorem bind_eq_ok {α β : Type} {x : Except OutOfBounds α} {f : α → Except OutOfBounds β} {r : β} :
    (x >>= f) = .ok r ↔ ∃ a, x = .ok a ∧ f a = .ok r := by
  cases x <;> simp [bind, Except.bind]

theorem bind_eq_error {α β : Type} {x : Except OutOfBounds α} {f : α → Except OutOfBounds β} {e : OutOfBounds} :
    (x >>= f) = .error e ↔ x = .error e ∨ ∃ a, x = .ok a ∧ f a = .error e := by
  cases x <;> simp [bind, Except.bind]

@[simp] theorem commit_ok (s t : State) : commit s (.ok t) = .next t := rfl

@[simp] theorem commit_error (s : State) (e : OutOfBounds) : commit s (.error e) = .next (s.takeFault e) := rfl

/-- A commit answers the working copy, or the state before with the fault taken. -/
theorem commit_eq_next {s t : State} {r : Except OutOfBounds State} :
    commit s r = .next t ↔ r = .ok t ∨ ∃ e, r = .error e ∧ t = s.takeFault e := by
  cases r <;> simp [commit, eq_comm]

/-! ## Registers and memory -/

theorem readReg_lt {i : Byte} (h : i.toNat < 8) (s : State) : readReg i s = .ok (s.reg ⟨i.toNat, h⟩) := by
  simp [readReg, h]

theorem readReg_ge {i : Byte} (h : 8 ≤ i.toNat) (s : State) :
    readReg i s = .error { kind := .register, info := i.toNat } := by
  simp [readReg, Nat.not_lt.mpr h]

theorem readReg_ok {i v : Byte} {s : State} : readReg i s = .ok v ↔ ∃ h : i.toNat < 8, v = s.reg ⟨i.toNat, h⟩ := by
  by_cases h : i.toNat < 8 <;> simp [readReg, h, eq_comm]

theorem readReg_error {i : Byte} {s : State} {e : OutOfBounds} :
    readReg i s = .error e ↔ 8 ≤ i.toNat ∧ e = { kind := .register, info := i.toNat } := by
  by_cases h : i.toNat < 8 <;> simp [readReg, h, eq_comm]
  omega

theorem writeReg_lt {i : Byte} (h : i.toNat < 8) (v : Byte) (s : State) :
    writeReg i v s = .ok (s.setReg ⟨i.toNat, h⟩ v) := by
  simp [writeReg, h]

theorem writeReg_ge {i : Byte} (h : 8 ≤ i.toNat) (v : Byte) (s : State) :
    writeReg i v s = .error { kind := .register, info := i.toNat } := by
  simp [writeReg, Nat.not_lt.mpr h]

theorem writeReg_ok {i v : Byte} {s t : State} :
    writeReg i v s = .ok t ↔ ∃ h : i.toNat < 8, t = s.setReg ⟨i.toNat, h⟩ v := by
  by_cases h : i.toNat < 8 <;> simp [writeReg, h, eq_comm]

theorem writeReg_error {i v : Byte} {s : State} {e : OutOfBounds} :
    writeReg i v s = .error e ↔ 8 ≤ i.toNat ∧ e = { kind := .register, info := i.toNat } := by
  by_cases h : i.toNat < 8 <;> simp [writeReg, h, eq_comm]
  omega

theorem memRead_ok {a : Nat} {v : Byte} {s : State} : memRead a s = .ok v ↔ a ≤ 255 ∧ v = s.mem.read a := by
  by_cases h : 255 < a <;> simp [memRead, h, eq_comm]
  omega

theorem memRead_error {a : Nat} {s : State} {e : OutOfBounds} :
    memRead a s = .error e ↔ 255 < a ∧ e = { kind := .memory, info := a } := by
  by_cases h : 255 < a <;> simp [memRead, h, eq_comm]

/-- A data address is a byte, so it is never out of bounds (20_memory.md R42). -/
@[simp] theorem memRead_byte (a : Byte) (s : State) : memRead a.toNat s = .ok (s.mem.read a.toNat) :=
  memRead_ok.mpr ⟨by omega, rfl⟩

@[simp] theorem memWrite_byte (a v : Byte) (s : State) :
    memWrite a.toNat v s = .ok (s.setMem (s.mem.write a.toNat v)) := by
  have : ¬ 255 < a.toNat := by omega
  simp [memWrite, this]

/-! ## The stack pointer -/

theorem spDec_ok {s t : State} :
    spDec s = .ok t ↔ s.sp.toNat ≠ 0 ∧ t = s.setSp (BitVec.ofNat 8 (s.sp.toNat - 1)) := by
  by_cases h : s.sp.toNat = 0 <;> simp [spDec, h, eq_comm]

theorem spDec_error {s : State} {e : OutOfBounds} :
    spDec s = .error e ↔ s.sp.toNat = 0 ∧ e = { kind := .stack, info := 0 } := by
  by_cases h : s.sp.toNat = 0 <;> simp [spDec, h, eq_comm]

theorem spInc_ok {s t : State} :
    spInc s = .ok t ↔ s.sp.toNat ≠ 255 ∧ t = s.setSp (BitVec.ofNat 8 (s.sp.toNat + 1)) := by
  by_cases h : s.sp.toNat = 255 <;> simp [spInc, h, eq_comm]

theorem spInc_error {s : State} {e : OutOfBounds} :
    spInc s = .error e ↔ s.sp.toNat = 255 ∧ e = { kind := .stack, info := 255 } := by
  by_cases h : s.sp.toNat = 255 <;> simp [spInc, h, eq_comm]

/-! ## Fetch -/

/-- A fetch window inside memory reads its three bytes (41_loop.md R102). -/
theorem fetch_ok {s : State} {w : Latches} :
    fetch s = .ok w ↔
      s.pc ≤ 253 ∧ w = ⟨s.mem.read s.pc, s.mem.read (s.pc + 1), s.mem.read (s.pc + 2)⟩ := by
  simp only [fetch, bind_eq_ok, memRead_ok, pure, Except.pure, Except.ok.injEq]
  constructor
  · rintro ⟨_, ⟨_, rfl⟩, _, ⟨_, rfl⟩, _, ⟨h, rfl⟩, rfl⟩
    exact ⟨by omega, rfl⟩
  · rintro ⟨h, rfl⟩
    exact ⟨_, ⟨by omega, rfl⟩, _, ⟨by omega, rfl⟩, _, ⟨by omega, rfl⟩, rfl⟩

/-- A fetch window that reaches past 255 raises at its first address above 255 (41_loop.md R102). -/
theorem fetch_error {s : State} {e : OutOfBounds} :
    fetch s = .error e ↔ 254 ≤ s.pc ∧ e = { kind := .memory, info := max s.pc 256 } := by
  simp only [fetch, bind_eq_error, memRead_error, memRead_ok, pure, Except.pure, reduceCtorEq, and_false,
    exists_const, or_false]
  constructor
  · rintro (⟨h, rfl⟩ | ⟨_, ⟨h₀, rfl⟩, ⟨h, rfl⟩ | ⟨_, ⟨h₁, rfl⟩, h, rfl⟩⟩) <;>
      refine ⟨by omega, ?_⟩ <;> congr 1 <;> omega
  · rintro ⟨h, rfl⟩
    by_cases h₀ : 255 < s.pc
    · exact .inl ⟨h₀, by congr 1; omega⟩
    · refine .inr ⟨_, ⟨by omega, rfl⟩, ?_⟩
      by_cases h₁ : 255 < s.pc + 1
      · exact .inl ⟨h₁, by congr 1; omega⟩
      · exact .inr ⟨_, ⟨by omega, rfl⟩, by omega, by congr 1; omega⟩

end Sys2Proof.Machine
end

