-- ==== Sys2Proof/Laws/Exec.lean ====
section
/-! SUPPORT. What each meaning can do, said once: if it answers `next t`, then `t` is one of these states. Later proofs
cite these and do not unfold the meanings. -/

namespace Sys2Proof.Machine

variable {s t : State} {a b : Byte}

theorem jumpTo_ok : jumpTo a s = .ok t ↔ ∃ h : a.toNat < 8, t = s.setPc (s.reg ⟨a.toNat, h⟩).toNat := by
  simp only [jumpTo, bind_eq_ok, readReg_ok, pure, Except.pure, Except.ok.injEq]
  constructor
  · rintro ⟨_, ⟨h, rfl⟩, rfl⟩; exact ⟨h, rfl⟩
  · rintro ⟨h, rfl⟩; exact ⟨_, ⟨h, rfl⟩, rfl⟩

theorem jumpTo_error {e : OutOfBounds} :
    jumpTo a s = .error e ↔ 8 ≤ a.toNat ∧ e = { kind := .register, info := a.toNat } := by
  simp [jumpTo, bind_eq_error, readReg_error, pure, Except.pure]

theorem aluInto_ok {f : Byte → Byte → Byte} :
    aluInto f a b s = .ok t ↔ ∃ (ha : a.toNat < 8) (hb : b.toNat < 8),
      t = (s.setReg ⟨a.toNat, ha⟩ (f (s.reg ⟨a.toNat, ha⟩) (s.reg ⟨b.toNat, hb⟩))).advance 3 := by
  simp only [aluInto, bind_eq_ok, readReg_ok, writeReg_ok, pure, Except.pure, Except.ok.injEq]
  constructor
  · rintro ⟨_, ⟨ha, rfl⟩, _, ⟨hb, rfl⟩, _, ⟨_, rfl⟩, rfl⟩; exact ⟨ha, hb, rfl⟩
  · rintro ⟨ha, hb, rfl⟩; exact ⟨_, ⟨ha, rfl⟩, _, ⟨hb, rfl⟩, _, ⟨ha, rfl⟩, rfl⟩

theorem aluInto_error {f : Byte → Byte → Byte} {e : OutOfBounds} :
    aluInto f a b s = .error e ↔
      8 ≤ a.toNat ∧ e = { kind := .register, info := a.toNat } ∨
      a.toNat < 8 ∧ 8 ≤ b.toNat ∧ e = { kind := .register, info := b.toNat } := by
  by_cases ha : a.toNat < 8
  · by_cases hb : b.toNat < 8
    · have : ∀ v, writeReg a v s ≠ .error e := fun v h => by
        have := (writeReg_error.mp h).1
        omega
      simp [aluInto, readReg_lt ha, readReg_lt hb, bind_eq_error, this, pure, Except.pure, Nat.not_le.mpr ha,
        Nat.not_le.mpr hb]
    · simp only [aluInto, readReg_lt ha, readReg_ge (Nat.not_lt.mp hb) s, bind, Except.bind, Except.error.injEq,
        Nat.not_le.mpr ha, Nat.not_lt.mp hb, ha, true_and, false_and, false_or, eq_comm]
  · simp only [aluInto, readReg_ge (Nat.not_lt.mp ha) s, bind, Except.bind, Except.error.injEq, ha, Nat.not_lt.mp ha,
      true_and, false_and, or_false, eq_comm]

/-- Two next outcomes are equal when their states are. -/
theorem next_inj {u v : State} : (Host.Outcome.next u : Host.Outcome State Fault Refusal) = .next v ↔ v = u := by
  rw [Host.Outcome.next.injEq, eq_comm]

/-- An instruction's meaning is a commit of a working copy. -/
theorem exec_eq_commit (i : Instr) (s : State) : ∃ r, exec i s = commit s r := by
  cases i
  all_goals exact ⟨_, by rw [exec]; rfl⟩

theorem execHalt_next : execHalt s = .next t ↔ t = s.halt .haltInstr 0x00#8 := by
  simp [execHalt, eq_comm]

theorem execLdi_next : execLdi a b s = .next t ↔
    (∃ h : a.toNat < 8, t = (s.setReg ⟨a.toNat, h⟩ b).advance 3) ∨
    8 ≤ a.toNat ∧ t = s.takeFault { kind := .register, info := a.toNat } := by
  by_cases h : a.toNat < 8
  · simp [execLdi, writeReg_lt h, h, bind, Except.bind, pure, Except.pure, eq_comm, Nat.not_le.mpr h]
  · simp [execLdi, writeReg_ge (Nat.not_lt.mp h), h, bind, Except.bind, eq_comm, Nat.not_lt.mp h]

theorem execPrn_next : execPrn a s = .next t ↔
    (∃ h : a.toNat < 8, t = (s.emit (s.reg ⟨a.toNat, h⟩)).advance 2) ∨
    8 ≤ a.toNat ∧ t = s.takeFault { kind := .register, info := a.toNat } := by
  by_cases h : a.toNat < 8
  · simp [execPrn, readReg_lt h, h, bind, Except.bind, pure, Except.pure, eq_comm, Nat.not_le.mpr h]
  · simp [execPrn, readReg_ge (Nat.not_lt.mp h), h, bind, Except.bind, eq_comm, Nat.not_lt.mp h]

/-- ADD and MUL have one shape. -/
theorem commit_aluInto_next {f : Byte → Byte → Byte} : commit s (aluInto f a b s) = .next t ↔
    (∃ (ha : a.toNat < 8) (hb : b.toNat < 8),
      t = (s.setReg ⟨a.toNat, ha⟩ (f (s.reg ⟨a.toNat, ha⟩) (s.reg ⟨b.toNat, hb⟩))).advance 3) ∨
    8 ≤ a.toNat ∧ t = s.takeFault { kind := .register, info := a.toNat } ∨
    a.toNat < 8 ∧ 8 ≤ b.toNat ∧ t = s.takeFault { kind := .register, info := b.toNat } := by
  rw [commit_eq_next, aluInto_ok]
  refine or_congr_right ⟨?_, ?_⟩
  · rintro ⟨e, he, rfl⟩
    rcases aluInto_error.mp he with ⟨h, rfl⟩ | ⟨h, h', rfl⟩
    · exact .inl ⟨h, rfl⟩
    · exact .inr ⟨h, h', rfl⟩
  · rintro (⟨h, rfl⟩ | ⟨h, h', rfl⟩)
    · exact ⟨_, aluInto_error.mpr (.inl ⟨h, rfl⟩), rfl⟩
    · exact ⟨_, aluInto_error.mpr (.inr ⟨h, h', rfl⟩), rfl⟩

theorem execCmp_next : execCmp a b s = .next t ↔
    (∃ (ha : a.toNat < 8) (hb : b.toNat < 8),
      t = (s.setFlags (compareFlags s.config.cmpFlagUpdate (s.reg ⟨a.toNat, ha⟩) (s.reg ⟨b.toNat, hb⟩)
        s.flags)).advance 3) ∨
    8 ≤ a.toNat ∧ t = s.takeFault { kind := .register, info := a.toNat } ∨
    a.toNat < 8 ∧ 8 ≤ b.toNat ∧ t = s.takeFault { kind := .register, info := b.toNat } := by
  by_cases ha : a.toNat < 8
  · by_cases hb : b.toNat < 8
    · simp [execCmp, readReg_lt ha, readReg_lt hb, ha, hb, bind, Except.bind, pure, Except.pure, eq_comm,
        Nat.not_le.mpr ha, Nat.not_le.mpr hb]
    · simp [execCmp, readReg_lt ha, readReg_ge (Nat.not_lt.mp hb), ha, hb, bind, Except.bind, eq_comm,
        Nat.not_le.mpr ha, Nat.not_lt.mp hb]
  · simp [execCmp, readReg_ge (Nat.not_lt.mp ha), ha, bind, Except.bind, eq_comm, Nat.not_lt.mp ha]

theorem execPush_next : execPush a s = .next t ↔
    s.sp.toNat = 0 ∧ t = s.takeFault { kind := .stack, info := 0 } ∨
    s.sp.toNat ≠ 0 ∧ (
      (∃ h : a.toNat < 8, let u := s.setSp (BitVec.ofNat 8 (s.sp.toNat - 1))
        t = (u.setMem (u.mem.write u.sp.toNat (u.reg ⟨a.toNat, h⟩))).advance 2) ∨
      8 ≤ a.toNat ∧ t = s.takeFault { kind := .register, info := a.toNat }) := by
  by_cases h₀ : s.sp.toNat = 0
  · simp only [execPush, spDec_error.mpr ⟨h₀, rfl⟩, bind, Except.bind, commit_error, next_inj, h₀, ne_eq,
      not_true_eq_false, true_and, false_and, or_false]
  · simp only [execPush, spDec_ok.mpr ⟨h₀, rfl⟩, bind, Except.bind, h₀, ne_eq, not_false_eq_true, true_and, false_and,
      false_or]
    by_cases h : a.toNat < 8
    · simp only [readReg_lt h, memWrite_byte, pure, Except.pure, commit_ok, next_inj, h, exists_true_left,
        Nat.not_le.mpr h, false_and, or_false]
    · simp only [readReg_ge (Nat.not_lt.mp h), commit_error, next_inj, h, IsEmpty.exists_iff, Nat.not_lt.mp h,
        true_and, false_or]

theorem execPop_next : execPop a s = .next t ↔
    (∃ h : a.toNat < 8, let u := s.setReg ⟨a.toNat, h⟩ (s.mem.read s.sp.toNat)
      u.sp.toNat ≠ 255 ∧ t = (u.setSp (BitVec.ofNat 8 (u.sp.toNat + 1))).advance 2 ∨
      u.sp.toNat = 255 ∧ t = s.takeFault { kind := .stack, info := 255 }) ∨
    8 ≤ a.toNat ∧ t = s.takeFault { kind := .register, info := a.toNat } := by
  by_cases h : a.toNat < 8
  · simp only [execPop, memRead_byte, bind, Except.bind, writeReg_lt h, h, exists_true_left, Nat.not_le.mpr h,
      false_and, or_false]
    by_cases h₁ : (s.setReg ⟨a.toNat, h⟩ (s.mem.read s.sp.toNat)).sp.toNat = 255
    · simp only [spInc_error.mpr ⟨h₁, rfl⟩, commit_error, next_inj, h₁, ne_eq, not_true_eq_false, true_and, false_and,
        false_or]
    · simp only [spInc_ok.mpr ⟨h₁, rfl⟩, pure, Except.pure, commit_ok, next_inj, h₁, ne_eq, not_false_eq_true,
        true_and, false_and, or_false]
  · simp only [execPop, memRead_byte, bind, Except.bind, writeReg_ge (Nat.not_lt.mp h), commit_error, next_inj, h,
      IsEmpty.exists_iff, Nat.not_lt.mp h, true_and, false_or]

theorem execCall_next : execCall a s = .next t ↔
    s.sp.toNat = 0 ∧ t = s.takeFault { kind := .stack, info := 0 } ∨
    s.sp.toNat ≠ 0 ∧ (
      (∃ h : a.toNat < 8, let u := s.setSp (BitVec.ofNat 8 (s.sp.toNat - 1))
        t = (u.setMem (u.mem.write u.sp.toNat (returnAddress u))).setPc (u.reg ⟨a.toNat, h⟩).toNat) ∨
      8 ≤ a.toNat ∧ t = s.takeFault { kind := .register, info := a.toNat }) := by
  by_cases h₀ : s.sp.toNat = 0
  · simp only [execCall, spDec_error.mpr ⟨h₀, rfl⟩, bind, Except.bind, commit_error, next_inj, h₀, ne_eq,
      not_true_eq_false, true_and, false_and, or_false]
  · simp only [execCall, spDec_ok.mpr ⟨h₀, rfl⟩, bind, Except.bind, memWrite_byte, commit_eq_next, jumpTo_ok,
      jumpTo_error, State.setMem_reg, h₀, ne_eq, not_false_eq_true, true_and, false_and, false_or]
    refine or_congr_right ⟨?_, ?_⟩
    · rintro ⟨_, ⟨h, rfl⟩, rfl⟩; exact ⟨h, rfl⟩
    · rintro ⟨h, rfl⟩; exact ⟨_, ⟨h, rfl⟩, rfl⟩

theorem execRet_next : execRet s = .next t ↔
    s.sp.toNat ≠ 255 ∧ t = (s.setSp (BitVec.ofNat 8 (s.sp.toNat + 1))).setPc (s.mem.read s.sp.toNat).toNat ∨
    s.sp.toNat = 255 ∧ t = s.takeFault { kind := .stack, info := 255 } := by
  by_cases h : s.sp.toNat = 255
  · simp only [execRet, memRead_byte, spInc_error.mpr ⟨h, rfl⟩, bind, Except.bind, commit_error, next_inj]
    simp [h]
  · simp only [execRet, memRead_byte, spInc_ok.mpr ⟨h, rfl⟩, bind, Except.bind, pure, Except.pure, commit_ok, next_inj,
      h, ne_eq, not_false_eq_true, true_and, false_and, or_false]

/-- JMP, and JEQ and JNE when they jump. -/
theorem commit_jumpTo_next : commit s (jumpTo a s) = .next t ↔
    (∃ h : a.toNat < 8, t = s.setPc (s.reg ⟨a.toNat, h⟩).toNat) ∨
    8 ≤ a.toNat ∧ t = s.takeFault { kind := .register, info := a.toNat } := by
  rw [commit_eq_next, jumpTo_ok]
  refine or_congr_right ⟨?_, ?_⟩
  · rintro ⟨_, he, rfl⟩
    obtain ⟨h, rfl⟩ := jumpTo_error.mp he
    exact ⟨h, rfl⟩
  · rintro ⟨h, rfl⟩; exact ⟨_, jumpTo_error.mpr ⟨h, rfl⟩, rfl⟩

theorem execJeq_next : execJeq a s = .next t ↔
    (s.flags.e = true ∧ execJmp a s = .next t) ∨ (s.flags.e = false ∧ t = s.advance 2) := by
  cases h : s.flags.e <;> simp [execJeq, execJmp, h, eq_comm]

theorem execJne_next : execJne a s = .next t ↔
    (s.flags.e = false ∧ execJmp a s = .next t) ∨ (s.flags.e = true ∧ t = s.advance 2) := by
  cases h : s.flags.e <;> simp [execJne, execJmp, h, eq_comm]

end Sys2Proof.Machine
end

