-- ==== Sys2Proof/Laws/Effect.lean ====
section
/-! SUPPORT. The thirteen meanings together: every next state that `exec` can answer is one of these. A claim about every
instruction is a case analysis over `Effect`. -/

namespace Sys2Proof.Machine

/-- What an instruction can make of a state: one of four faults, or its own effect. -/
inductive Effect (s : State) : Instr → State → Prop
  | registerFault {i : Instr} {r : Byte} (h : 8 ≤ r.toNat) (hr : r ∈ i.registerOperands) :
      Effect s i (s.takeFault { kind := .register, info := r.toNat })
  | stackLow {i : Instr} (h : s.sp.toNat = 0) (hi : i.mnemonic = .push ∨ i.mnemonic = .call) :
      Effect s i (s.takeFault { kind := .stack, info := 0 })
  | stackHigh {i : Instr} (hi : i.mnemonic = .pop ∨ i.mnemonic = .ret) :
      Effect s i (s.takeFault { kind := .stack, info := 255 })
  | halt : Effect s .halt (s.halt .haltInstr 0x00#8)
  | ldi {a b : Byte} (h : a.toNat < 8) : Effect s (.ldi a b) ((s.setReg ⟨a.toNat, h⟩ b).advance 3)
  | prn {a : Byte} (h : a.toNat < 8) : Effect s (.prn a) ((s.emit (s.reg ⟨a.toNat, h⟩)).advance 2)
  | add {a b : Byte} (h : a.toNat < 8) (h' : b.toNat < 8) : Effect s (.add a b)
      ((s.setReg ⟨a.toNat, h⟩ (aluAdd (s.reg ⟨a.toNat, h⟩) (s.reg ⟨b.toNat, h'⟩))).advance 3)
  | mul {a b : Byte} (h : a.toNat < 8) (h' : b.toNat < 8) : Effect s (.mul a b)
      ((s.setReg ⟨a.toNat, h⟩ (aluMul (s.reg ⟨a.toNat, h⟩) (s.reg ⟨b.toNat, h'⟩))).advance 3)
  | cmp {a b : Byte} (h : a.toNat < 8) (h' : b.toNat < 8) : Effect s (.cmp a b)
      ((s.setFlags (compareFlags s.config.cmpFlagUpdate (s.reg ⟨a.toNat, h⟩) (s.reg ⟨b.toNat, h'⟩) s.flags)).advance 3)
  | push {a : Byte} {u : State} (h : a.toNat < 8) (hu : spDec s = .ok u) : Effect s (.push a)
      ((u.setMem (u.mem.write u.sp.toNat (u.reg ⟨a.toNat, h⟩))).advance 2)
  | pop {a : Byte} {u v : State} (h : a.toNat < 8) (hu : u = s.setReg ⟨a.toNat, h⟩ (s.mem.read s.sp.toNat))
      (hv : spInc u = .ok v) : Effect s (.pop a) (v.advance 2)
  | call {a : Byte} {u : State} (h : a.toNat < 8) (hu : spDec s = .ok u) : Effect s (.call a)
      ((u.setMem (u.mem.write u.sp.toNat (returnAddress u))).setPc (u.reg ⟨a.toNat, h⟩).toNat)
  | ret {u : State} (hu : spInc s = .ok u) : Effect s .ret (u.setPc (s.mem.read s.sp.toNat).toNat)
  | jmp {a : Byte} (h : a.toNat < 8) : Effect s (.jmp a) (s.setPc (s.reg ⟨a.toNat, h⟩).toNat)
  | jeqTaken {a : Byte} (h : a.toNat < 8) (he : s.flags.e = true) :
      Effect s (.jeq a) (s.setPc (s.reg ⟨a.toNat, h⟩).toNat)
  | jeqNotTaken {a : Byte} (he : s.flags.e = false) : Effect s (.jeq a) (s.advance 2)
  | jneTaken {a : Byte} (h : a.toNat < 8) (he : s.flags.e = false) :
      Effect s (.jne a) (s.setPc (s.reg ⟨a.toNat, h⟩).toNat)
  | jneNotTaken {a : Byte} (he : s.flags.e = true) : Effect s (.jne a) (s.advance 2)

/-- Every next state of `exec` is an effect of its instruction. -/
theorem exec_effect {i : Instr} {s t : State} (hx : exec i s = .next t) : Effect s i t := by
  cases i <;> simp only [exec] at hx
  case halt => rw [execHalt_next.mp hx]; exact .halt
  case ldi a b =>
    rcases execLdi_next.mp hx with ⟨h, rfl⟩ | ⟨h, rfl⟩
    · exact .ldi h
    · exact .registerFault h (by simp [Instr.registerOperands])
  case prn a =>
    rcases execPrn_next.mp hx with ⟨h, rfl⟩ | ⟨h, rfl⟩
    · exact .prn h
    · exact .registerFault h (by simp [Instr.registerOperands])
  case add a b =>
    rcases commit_aluInto_next.mp hx with ⟨h, h', rfl⟩ | ⟨h, rfl⟩ | ⟨_, h, rfl⟩
    · exact .add h h'
    · exact .registerFault h (by simp [Instr.registerOperands])
    · exact .registerFault h (by simp [Instr.registerOperands])
  case mul a b =>
    rcases commit_aluInto_next.mp hx with ⟨h, h', rfl⟩ | ⟨h, rfl⟩ | ⟨_, h, rfl⟩
    · exact .mul h h'
    · exact .registerFault h (by simp [Instr.registerOperands])
    · exact .registerFault h (by simp [Instr.registerOperands])
  case cmp a b =>
    rcases execCmp_next.mp hx with ⟨h, h', rfl⟩ | ⟨h, rfl⟩ | ⟨_, h, rfl⟩
    · exact .cmp h h'
    · exact .registerFault h (by simp [Instr.registerOperands])
    · exact .registerFault h (by simp [Instr.registerOperands])
  case push a =>
    rcases execPush_next.mp hx with ⟨h, rfl⟩ | ⟨h₀, ⟨h, rfl⟩ | ⟨h, rfl⟩⟩
    · exact .stackLow h (.inl rfl)
    · exact .push h (spDec_ok.mpr ⟨h₀, rfl⟩)
    · exact .registerFault h (by simp [Instr.registerOperands])
  case pop a =>
    rcases execPop_next.mp hx with ⟨h, ⟨h₀, rfl⟩ | ⟨_, rfl⟩⟩ | ⟨h, rfl⟩
    · exact .pop h rfl (spInc_ok.mpr ⟨h₀, rfl⟩)
    · exact .stackHigh (.inl rfl)
    · exact .registerFault h (by simp [Instr.registerOperands])
  case call a =>
    rcases execCall_next.mp hx with ⟨h, rfl⟩ | ⟨h₀, ⟨h, rfl⟩ | ⟨h, rfl⟩⟩
    · exact .stackLow h (.inr rfl)
    · exact .call h (spDec_ok.mpr ⟨h₀, rfl⟩)
    · exact .registerFault h (by simp [Instr.registerOperands])
  case ret =>
    rcases execRet_next.mp hx with ⟨h, rfl⟩ | ⟨_, rfl⟩
    · exact .ret (spInc_ok.mpr ⟨h, rfl⟩)
    · exact .stackHigh (.inr rfl)
  case jmp a =>
    rcases commit_jumpTo_next.mp hx with ⟨h, rfl⟩ | ⟨h, rfl⟩
    · exact .jmp h
    · exact .registerFault h (by simp [Instr.registerOperands])
  case jeq a =>
    rcases execJeq_next.mp hx with ⟨he, hj⟩ | ⟨he, rfl⟩
    · rcases commit_jumpTo_next.mp hj with ⟨h, rfl⟩ | ⟨h, rfl⟩
      · exact .jeqTaken h he
      · exact .registerFault h (by simp [Instr.registerOperands])
    · exact .jeqNotTaken he
  case jne a =>
    rcases execJne_next.mp hx with ⟨he, hj⟩ | ⟨he, rfl⟩
    · rcases commit_jumpTo_next.mp hj with ⟨h, rfl⟩ | ⟨h, rfl⟩
      · exact .jneTaken h he
      · exact .registerFault h (by simp [Instr.registerOperands])
    · exact .jneNotTaken he

end Sys2Proof.Machine
end

