-- ==== Sys2Proof/Laws/PerInstr.lean ====
section
/-! SUPPORT. Statements about every instruction, one lemma per constructor. -/

namespace Sys2Proof.Laws.EncodedLength

/-- An instruction's encoding is as long as its opcode's fixed operand count says, 1 to 3 bytes, under every opcode map
(30_encoding.md R60). -/
def Statement (i : Instr) : Prop :=
  ∀ m : OpcodeMap, (encode m i).length = 1 + i.mnemonic.operandCount ∧ (encode m i).length ≤ 3

theorem halt : Statement .halt := fun _ => ⟨rfl, Nat.le_add_left 1 2⟩
theorem ldi (a b : Byte) : Statement (.ldi a b) := fun _ => ⟨rfl, Nat.le_refl 3⟩
theorem prn (a : Byte) : Statement (.prn a) := fun _ => ⟨rfl, Nat.le_succ 2⟩
theorem add (a b : Byte) : Statement (.add a b) := fun _ => ⟨rfl, Nat.le_refl 3⟩
theorem mul (a b : Byte) : Statement (.mul a b) := fun _ => ⟨rfl, Nat.le_refl 3⟩
theorem cmp (a b : Byte) : Statement (.cmp a b) := fun _ => ⟨rfl, Nat.le_refl 3⟩
theorem push (a : Byte) : Statement (.push a) := fun _ => ⟨rfl, Nat.le_succ 2⟩
theorem pop (a : Byte) : Statement (.pop a) := fun _ => ⟨rfl, Nat.le_succ 2⟩
theorem call (a : Byte) : Statement (.call a) := fun _ => ⟨rfl, Nat.le_succ 2⟩
theorem ret : Statement .ret := fun _ => ⟨rfl, Nat.le_add_left 1 2⟩
theorem jmp (a : Byte) : Statement (.jmp a) := fun _ => ⟨rfl, Nat.le_succ 2⟩
theorem jeq (a : Byte) : Statement (.jeq a) := fun _ => ⟨rfl, Nat.le_succ 2⟩
theorem jne (a : Byte) : Statement (.jne a) := fun _ => ⟨rfl, Nat.le_succ 2⟩

end Sys2Proof.Laws.EncodedLength
end

