-- ==== Sys2Proof/Laws/Step.lean ====
section
/-! SUPPORT. What a step can do, said once, and one step of a run. -/

namespace Sys2Proof.Machine

/-- Three bytes are never too few: the only way a window does not decode is an unknown opcode (41_loop.md R103). -/
theorem decode_window_error {m : OpcodeMap} {ir a b : Byte} {e : DecodeError} :
    decode m [ir, a, b] = .error e ↔ ir ∉ m.bytes ∧ e = .unknownOpcode ir := by
  rw [← OpcodeMap.lookup_eq_none]
  cases h : m.lookup ir with
  | none => simp [decode, h, eq_comm]
  | some mn => cases mn <;> simp [decode, h, decodeOperands]

/-- Everything a step that answers a next state can have done: the fetch raised, the opcode is unknown, or the decoded
instruction ran. -/
theorem step_next {s t : State} : step s = .next t ↔ s.status = .running ∧ (
    254 ≤ s.pc ∧ t = s.takeFault { kind := .memory, info := max s.pc 256 } ∨
    s.pc ≤ 253 ∧ (
      let w : Latches := ⟨s.mem.read s.pc, s.mem.read (s.pc + 1), s.mem.read (s.pc + 2)⟩
      w.ir ∉ s.config.opcodeMap.bytes ∧ t = (s.halt .unknownOpcode w.ir).setLatches w ∨
      ∃ i rest u, decode s.config.opcodeMap w.bytes = .ok (i, rest) ∧ exec i s = .next u ∧
        t = u.commitLatches w)) := by
  unfold step
  cases hs : s.status with
  | halted c i => simp
  | faulted k n => simp
  | running =>
    by_cases hp : 254 ≤ s.pc
    · simp [fetch_error.mpr ⟨hp, rfl⟩, hp, eq_comm, Nat.not_le.mpr (Nat.lt_of_succ_le hp)]
    · have hp' : s.pc ≤ 253 := by omega
      simp only [fetch_ok.mpr ⟨hp', rfl⟩, hp, hp', true_and, false_and, false_or]
      cases hd : decode s.config.opcodeMap
          (Latches.bytes ⟨s.mem.read s.pc, s.mem.read (s.pc + 1), s.mem.read (s.pc + 2)⟩) with
      | error e =>
        obtain ⟨h, rfl⟩ := decode_window_error.mp hd
        simp [h, eq_comm]
      | ok r =>
        have hm : s.mem.read s.pc ∈ s.config.opcodeMap.bytes := by
          by_contra hn
          rw [Latches.bytes, decode_window_error.mpr ⟨hn, rfl⟩] at hd
          cases hd
        obtain ⟨i, rest⟩ := r
        simp only [hm, not_true_eq_false, false_and, false_or]
        constructor
        · intro h
          obtain ⟨c, hc⟩ := exec_eq_commit i s
          cases c with
          | ok u => exact ⟨i, rest, u, rfl, hc, by simpa [hc, latchOutcome, eq_comm] using h⟩
          | error e => exact ⟨i, rest, _, rfl, hc, by simpa [hc, latchOutcome, eq_comm] using h⟩
        · rintro ⟨i', rest', u, h, hu, rfl⟩
          cases h
          simp [hu, latchOutcome]

/-- A stopped machine takes no step (41_loop.md R100). -/
theorem step_stopped {s : State} (h : s.status ≠ .running) : step s = .fault .notRunning := by
  unfold step
  cases hs : s.status with
  | running => exact absurd hs h
  | halted c i => rfl
  | faulted k n => rfl

/-- A run goes on after a step that answers a next state. -/
theorem run_succ_of_next {k : Nat} {s u : State} (h : step s = .next u) :
    Host.Core.run Sys2Proof.core (k + 1) s = Host.Core.run Sys2Proof.core k u := by
  have h' : Sys2Proof.core.step s = .next u := h
  simp only [Host.Core.run, h']

/-- A run ends at a step that faults. -/
theorem run_succ_of_fault {k : Nat} {s : State} {f : Fault} (h : step s = .fault f) :
    Host.Core.run Sys2Proof.core (k + 1) s = .fault f := by
  have h' : Sys2Proof.core.step s = .fault f := h
  simp only [Host.Core.run, h']

/-- A run ends at a step that is refused. -/
theorem run_succ_of_refused {k : Nat} {s : State} {r : Refusal} (h : step s = .refused r) :
    Host.Core.run Sys2Proof.core (k + 1) s = .refused r := by
  have h' : Sys2Proof.core.step s = .refused r := h
  simp only [Host.Core.run, h']

/-- A run of `k + 1` steps that answers a next state is a step and then a run of `k` steps. -/
theorem run_succ_next {k : Nat} {s t : State} :
    Host.Core.run Sys2Proof.core (k + 1) s = .next t ↔
      ∃ u, step s = .next u ∧ Host.Core.run Sys2Proof.core k u = .next t := by
  cases h : step s with
  | next u =>
    rw [run_succ_of_next h]
    exact ⟨fun hr => ⟨u, rfl, hr⟩, fun ⟨v, hv, hr⟩ => by cases hv; exact hr⟩
  | fault f => rw [run_succ_of_fault h]; exact ⟨fun hr => (nomatch hr), fun ⟨v, hv, _⟩ => (nomatch hv)⟩
  | refused r => rw [run_succ_of_refused h]; exact ⟨fun hr => (nomatch hr), fun ⟨v, hv, _⟩ => (nomatch hv)⟩

/-- A property that every step keeps holds after any run. -/
theorem run_induction {P : State → Prop} (hstep : ∀ s t, P s → step s = .next t → P t) {k : Nat} {s t : State}
    (hs : P s) (h : Host.Core.run Sys2Proof.core k s = .next t) : P t := by
  induction k generalizing s with
  | zero => cases h; exact hs
  | succ k ih =>
    obtain ⟨u, hu, h⟩ := run_succ_next.mp h
    exact ih (hstep s u hs hu) h

end Sys2Proof.Machine
end

