-- ==== Sys2Proof/Tests/Slice0.lean ====
section
/-! SUPPORT. Tests. Expected results are those of spec/95_test_vectors.md (a vector's id stands in the docstring), of the
encodings of spec/30_encoding.md R67, and of the rules named. The `witness_` theorems show, for each statement with
hypotheses, concrete values that meet them, at the boundaries of their ranges. -/

namespace Sys2Proof.Tests

open Sys2Proof.Machine

/-! ## Helpers -/

/-- A state with its pc at `pc` and bytes placed there. -/
def placed (s : State) (pc : Nat) (bytes : List Byte) : State :=
  (s.setPc pc).setMem (s.mem.place pc bytes)

/-- The reset state with its pc at `pc` and bytes placed there. -/
def fresh (pc : Nat) (bytes : List Byte) : State := placed State.reset pc bytes

/-- Whether one step answers a next state with a property. -/
def stepsTo (s : State) (p : State → Bool) : Bool :=
  match step s with
  | .next t    => p t
  | .fault _   => false
  | .refused _ => false

/-- Whether one instruction answers a next state with a property. -/
def runsTo (i : Instr) (s : State) (p : State → Bool) : Bool :=
  match exec i s with
  | .next t    => p t
  | .fault _   => false
  | .refused _ => false

/-- The three flags, as 95_test_vectors.md lists them: E, L, G. -/
def flagsOf (s : State) : Bool × Bool × Bool := (s.flags.e, s.flags.l, s.flags.g)

/-- The reset state with given flags E, L, G. -/
def flagged (e l g : Bool) : State := State.reset.setFlags { e := e, l := l, g := g }

/-- The reset state under `clear_first`, with given flags E, L, G. -/
def clearing (e l g : Bool) : State :=
  (State.resetWith { Config.standard with cmpFlagUpdate := .clearFirst }).setFlags { e := e, l := l, g := g }

/-! ## Well-formedness: one ill-formed term for each check -/

theorem test_map_with_one_byte_twice_is_refused :
    OpcodeMap.wf { OpcodeMap.standard with ret := 0x01#8 } = false := by decide

theorem test_config_with_such_a_map_is_refused :
    Config.wf { Config.standard with opcodeMap := { OpcodeMap.standard with jne := 0x55#8 } } = false := by decide

theorem test_standard_config_is_accepted : Config.standard.wf = true := by decide

theorem test_register_operand_8_is_refused :
    [Instr.ldi 0x08#8 0x00#8, .prn 0x08#8, .add 0x08#8 0x00#8, .add 0x00#8 0x08#8, .mul 0x08#8 0x00#8,
      .mul 0x00#8 0x08#8, .cmp 0x08#8 0x00#8, .cmp 0x00#8 0x08#8, .push 0x08#8, .pop 0x08#8, .call 0x08#8, .jmp 0x08#8,
      .jeq 0x08#8, .jne 0xFF#8].all (fun i => !i.wf) = true := by decide

theorem test_immediate_is_no_register_operand : Instr.wf (.ldi 0x07#8 0xFF#8) = true := by decide

/-! ## Decoding: each constructor from a word written out bit by bit (30_encoding.md R61, R67) -/

theorem test_decode_halt : decode OpcodeMap.standard [0b00000001#8] = .ok (.halt, []) := by decide
theorem test_decode_ldi :
    decode OpcodeMap.standard [0b10000010#8, 0b00000011#8, 0b11111110#8] = .ok (.ldi 3#8 254#8, []) := by decide
theorem test_decode_prn : decode OpcodeMap.standard [0b01000111#8, 0b00000101#8] = .ok (.prn 5#8, []) := by decide
theorem test_decode_add :
    decode OpcodeMap.standard [0b10100000#8, 0b00000001#8, 0b00000010#8] = .ok (.add 1#8 2#8, []) := by decide
theorem test_decode_mul :
    decode OpcodeMap.standard [0b10100010#8, 0b00000001#8, 0b00000010#8] = .ok (.mul 1#8 2#8, []) := by decide
theorem test_decode_cmp :
    decode OpcodeMap.standard [0b10100111#8, 0b00000001#8, 0b00000010#8] = .ok (.cmp 1#8 2#8, []) := by decide
theorem test_decode_push : decode OpcodeMap.standard [0b01000101#8, 0b00000111#8] = .ok (.push 7#8, []) := by decide
theorem test_decode_pop : decode OpcodeMap.standard [0b01000110#8, 0b00000111#8] = .ok (.pop 7#8, []) := by decide
theorem test_decode_call : decode OpcodeMap.standard [0b01010000#8, 0b10000000#8] = .ok (.call 128#8, []) := by decide
theorem test_decode_ret : decode OpcodeMap.standard [0b00010001#8, 0x01#8] = .ok (.ret, [0x01#8]) := by decide
theorem test_decode_jmp : decode OpcodeMap.standard [0b01010100#8, 0b00000110#8] = .ok (.jmp 6#8, []) := by decide
theorem test_decode_jeq : decode OpcodeMap.standard [0b01010101#8, 0b00000110#8] = .ok (.jeq 6#8, []) := by decide
theorem test_decode_jne : decode OpcodeMap.standard [0b01010110#8, 0b00000110#8] = .ok (.jne 6#8, []) := by decide

theorem test_decode_unknown : decode OpcodeMap.standard [0x02#8, 0x05#8] = .error (.unknownOpcode 0x02#8) := by decide
theorem test_decode_truncated : decode OpcodeMap.standard [0xA0#8, 0x05#8] = .error .truncated := by decide
theorem test_decode_nothing : decode OpcodeMap.standard [] = .error .truncated := by decide

/-- Another opcode map moves the opcodes (00_scope.md R7). -/
theorem test_decode_other_map :
    decode { OpcodeMap.standard with halt := 0x02#8, ret := 0x01#8 } [0x01#8] = .ok (.ret, []) := by decide

theorem test_table_word_operands : decodeTableWord 24 0x0803A0 = some (.add 0x03#8 0x08#8) := by decide
theorem test_table_word_drops_higher_bits : decodeTableWord 8 0x0803A0 = some (.add 0x00#8 0x00#8) := by decide
theorem test_table_word_unknown : decodeTableWord 8 0x00 = none := by decide

/-- The host's fetch word is what the next step runs. -/
theorem test_fetch_word :
    stepsTo (State.reset.withFetchWord 24 0x080082) (fun t => t.reg 0 == 0x08#8 && t.pc == 3) = true := by decide

/-! ## Fetch, unknown opcodes, stopped machines -/

/-- V-LOOP-1. -/
theorem test_last_legal_window :
    stepsTo (fresh 253 [0x82#8, 0x00#8, 0x01#8]) (fun t =>
      t.reg 0 == 0x01#8 && t.pc == 256 && t.status == .running && t.latches == ⟨0x82#8, 0x00#8, 0x01#8⟩) = true := by
  decide

/-- V-LOOP-2. -/
theorem test_fetch_at_256_faults :
    stepsTo (fresh 256 []) (fun t => t.status == .faulted .memory 256 && t.pc == 256) = true := by decide

/-- V-LOOP-4. -/
theorem test_unknown_opcode_halts :
    stepsTo (fresh 0 [0x02#8, 0x05#8, 0x07#8]) (fun t => t.status == .halted .unknownOpcode 0x02#8 && t.pc == 0) =
      true := by decide

/-- V-LOOP-5, V-LOOP-6. -/
theorem test_fetch_fault_comes_before_decode :
    (stepsTo (fresh 254 [0x00#8]) (fun t => t.status == .faulted .memory 256 && t.pc == 254) &&
      stepsTo (fresh 255 [0x01#8]) (fun t => t.status == .faulted .memory 256 && t.pc == 255)) = true := by decide

theorem test_stopped_machine_takes_no_step :
    (match step (State.reset.halt .haltInstr 0x00#8) with | .fault f => f == .notRunning | _ => false) = true := by
  decide

/-- A fault keeps the fetch latches (log 5). -/
theorem test_fault_keeps_latches :
    stepsTo (fresh 0 [0x82#8, 0x08#8, 0x01#8]) (fun t =>
      t == (fresh 0 [0x82#8, 0x08#8, 0x01#8]).setStatus (.faulted .register 8)) = true := by decide

/-! ## Instructions, one step each -/

/-- V-HALT-2. -/
theorem test_halt : stepsTo (fresh 253 [0x01#8]) (fun t => t.status == .halted .haltInstr 0x00#8 && t.pc == 253) = true := by
  decide

/-- V-LDI-3, V-LDI-4. -/
theorem test_ldi_sp : stepsTo (fresh 0 [0x82#8, 0x07#8, 0x10#8]) (fun t => t.sp == 0x10#8 && t.pc == 3) = true := by
  decide
theorem test_ldi_register_8 :
    stepsTo (fresh 0 [0x82#8, 0x08#8, 0x01#8]) (fun t => t.status == .faulted .register 8 && t.pc == 0) = true := by
  decide

/-- V-PRN-5: the third byte is ignored. -/
theorem test_prn :
    stepsTo (placed ((State.reset.setReg 1 0x09#8).emit 0x07#8) 0 [0x47#8, 0x01#8, 0x99#8]) (fun t =>
      t.output == [0x07#8, 0x09#8] && t.pc == 2) = true := by decide
/-- V-PRN-4. -/
theorem test_prn_register_8 :
    stepsTo (fresh 0 [0x47#8, 0x08#8]) (fun t => t.status == .faulted .register 8 && t.output == []) = true := by decide

/-- V-ADD-1. -/
theorem test_add_wraps :
    stepsTo (placed ((State.reset.setReg 0 200#8).setReg 1 100#8) 0 [0xA0#8, 0x00#8, 0x01#8]) (fun t =>
      t.reg 0 == 44#8 && t.reg 1 == 100#8 && t.pc == 3) = true := by decide
/-- V-ADD-8: a is checked first. -/
theorem test_add_checks_a_first :
    stepsTo (fresh 0 [0xA0#8, 0x08#8, 0x09#8]) (fun t => t.status == .faulted .register 8) = true := by decide

/-- V-MUL-3. -/
theorem test_mul_low_byte :
    runsTo (.mul 0x00#8 0x01#8) ((State.reset.setReg 0 255#8).setReg 1 255#8) (fun t => t.reg 0 == 1#8 && t.pc == 3) =
      true := by decide
/-- V-MUL-4: squaring, the source is also the destination. -/
theorem test_mul_squares : runsTo (.mul 0x00#8 0x00#8) (State.reset.setReg 0 15#8) (fun t => t.reg 0 == 225#8) = true := by
  decide

/-- V-CMP-4 and V-CMP-8, sticky: unsigned, and old flags stay. -/
theorem test_cmp_sticky :
    (runsTo (.cmp 0x00#8 0x01#8) ((State.reset.setReg 0 0x80#8).setReg 1 0x7F#8)
        (fun t => flagsOf t == (false, false, true) && t.pc == 3) &&
      runsTo (.cmp 0x00#8 0x01#8) (flagged false true true) (fun t => flagsOf t == (true, true, true))) = true := by
  decide
/-- V-CMP-6 and V-CMP-8, clear_first. -/
theorem test_cmp_clear_first :
    (runsTo (.cmp 0x00#8 0x01#8) (((clearing true false false).setReg 0 3#8).setReg 1 4#8)
        (fun t => flagsOf t == (false, true, false)) &&
      runsTo (.cmp 0x00#8 0x01#8) (clearing false true true) (fun t => flagsOf t == (true, false, false))) = true := by
  decide

/-- V-STK-3: PUSH R7 stores the decremented SP. -/
theorem test_push_sp :
    stepsTo (fresh 0 [0x45#8, 0x07#8]) (fun t => t.sp == 0xF3#8 && t.mem.read 0xF3 == 0xF3#8 && t.pc == 2) = true := by
  decide
/-- V-STK-10: the SP check comes before the register check. -/
theorem test_push_checks_sp_first :
    stepsTo (placed (State.reset.setReg 7 0x00#8) 9 [0x45#8, 0x08#8]) (fun t => t.status == .faulted .stack 0) = true := by
  decide

/-- V-STK-4: POP R7 loads, then increments. -/
theorem test_pop_sp :
    runsTo (.pop 0x07#8) ((State.reset.setReg 7 0xF3#8).loadByte 0xF3#8 0x10#8) (fun t => t.sp == 0x11#8 && t.pc == 2) =
      true := by decide
/-- V-STK-11: the register write comes before SpInc. -/
theorem test_pop_checks_register_first :
    runsTo (.pop 0x08#8) (State.reset.setReg 7 0xFF#8) (fun t => t.status == .faulted .register 8) = true := by decide

/-- V-CTL-3: CALL R7 jumps to the decremented SP. -/
theorem test_call_sp :
    stepsTo (fresh 4 [0x50#8, 0x07#8]) (fun t => t.sp == 0xF3#8 && t.mem.read 0xF3 == 6#8 && t.pc == 0xF3) = true := by
  decide
/-- V-CTL-5: nothing is committed. -/
theorem test_call_register_8 :
    stepsTo (fresh 4 [0x50#8, 0x08#8]) (fun t => t == (fresh 4 [0x50#8, 0x08#8]).setStatus (.faulted .register 8)) = true := by
  decide

/-- V-CTL-2. -/
theorem test_ret :
    stepsTo (placed ((State.reset.setReg 7 0xF3#8).loadByte 0xF3#8 8#8) 14 [0x11#8]) (fun t =>
      t.pc == 8 && t.sp == 0xF4#8) = true := by decide
/-- V-CTL-6. -/
theorem test_ret_at_255 : runsTo .ret (State.reset.setReg 7 0xFF#8) (fun t => t.status == .faulted .stack 255) = true := by
  decide

/-- V-CTL-10: a target of 254 is taken. -/
theorem test_jmp_to_254 :
    runsTo (.jmp 0x02#8) (State.reset.setReg 2 0xFE#8) (fun t => t.pc == 254 && t.status == .running) = true := by decide

/-- V-CTL-11 and V-CTL-14. -/
theorem test_jeq_taken :
    (runsTo (.jeq 0x03#8) (((flagged true false false).setReg 3 18#8).setPc 15) (fun t => t.pc == 18) &&
      runsTo (.jeq 0x09#8) (flagged true false false) (fun t => t.status == .faulted .register 9)) = true := by decide
/-- V-CTL-13: the register is not read. -/
theorem test_jeq_not_taken : runsTo (.jeq 0x09#8) ((flagged false true true).setPc 15) (fun t => t.pc == 17) = true := by
  decide

/-- V-CTL-18 and V-CTL-19. -/
theorem test_jne_taken :
    (runsTo (.jne 0x03#8) ((flagged false true true).setReg 3 12#8) (fun t => t.pc == 12) &&
      runsTo (.jne 0x08#8) (flagged false false false) (fun t => t.status == .faulted .register 8)) = true := by decide
/-- V-CTL-17. -/
theorem test_jne_not_taken : runsTo (.jne 0x0A#8) ((flagged true false false).setPc 20) (fun t => t.pc == 22) = true := by
  decide

/-! ## Host side -/

/-- The first lines of program P1 in the source's text format (95_test_vectors.md), with a comment and a blank line. -/
theorem test_parse_image :
    parseImage ["10000010  # LDI R0,8".toList, "# nothing".toList, "  ".toList, "00000000".toList, "00001000".toList] =
      .ok [0x82#8, 0x00#8, 0x08#8] := by decide
/-- E10: a non-binary line is a load error. -/
theorem test_parse_malformed :
    parseImage ["00000001".toList, "LDI R0,8".toList] = .error (.malformedLine 2) := by decide
/-- 30_encoding.md R73. -/
theorem test_assembly_text :
    asmText (.ldi 0x01#8 9#8) = some "LDI R1,9".toList ∧ asmText (.mul 0x00#8 0x01#8) = some "MUL R0,R1".toList ∧
      asmText .halt = some "HALT".toList ∧ asmText (.prn 0x08#8) = none := by decide
/-- 60_exceptions.md R162, 10_state.md R33. -/
theorem test_view :
    (State.reset.setStatus (.faulted .stack 255)).statusOutputs = ⟨2, 5, 255⟩ ∧
      (flagged true true false).stateView.flags = 0b00000101#8 := by decide

/-! ## Witnesses: values that meet each statement's hypotheses -/

/-- A machine that is not Running, for the statements about stopped machines. -/
def stopped : State := State.reset.halt .haltInstr 0x00#8

theorem witness_ResetRegisters : (6 : Fin 8) ≠ 7 := by decide
theorem witness_ResetMemoryIsZero : 255 ≤ 255 ∧ 255 < 256 := by decide
theorem witness_LoadedImageInMemory : (List.replicate 256 0x01#8).length ≤ 256 := by
  rw [List.length_replicate]
theorem witness_OverlongImageIsRefused : 256 < (List.replicate 257 0x01#8).length := by
  rw [List.length_replicate]; decide
theorem witness_DecodeOfEncode : OpcodeMap.standard.wf = true := by decide
theorem witness_EncodeOfDecode : decode OpcodeMap.standard [0x47#8, 0xFF#8, 0x01#8] = .ok (.prn 0xFF#8, [0x01#8]) := by
  decide
/-- One window for each operand count. -/
theorem witness_UnusedOperandBytesAreIgnored :
    (decode OpcodeMap.standard [0x11#8, 0xFF#8, 0x01#8] = .ok (.ret, [0xFF#8, 0x01#8]) ∧
      Instr.ret.mnemonic.operandCount = 0) ∧
    (decode OpcodeMap.standard [0x47#8, 0xFF#8, 0x01#8] = .ok (.prn 0xFF#8, [0x01#8]) ∧
      (Instr.prn 0xFF#8).mnemonic.operandCount = 1) ∧
    (decode OpcodeMap.standard [0xA0#8, 0xFF#8, 0x01#8] = .ok (.add 0xFF#8 0x01#8, []) ∧
      (Instr.add 0xFF#8 0x01#8).mnemonic.operandCount = 2) := by decide
theorem witness_StepRunsDecodedInstruction :
    let s := fresh 253 [0x47#8, 0x07#8]
    s.status = .running ∧ s.pc ≤ 253 ∧
      decode s.config.opcodeMap [s.mem.read s.pc, s.mem.read (s.pc + 1), s.mem.read (s.pc + 2)] =
        .ok (.prn 0x07#8, [0x00#8]) := by decide
/-- Both ways to fault: the first address above 255 is 256, or the pc itself. -/
theorem witness_StepFetchFault :
    ((fresh 254 []).status = .running ∧ 254 ≤ (fresh 254 []).pc ∧ (fresh 254 []).pc ≤ 255) ∧
      ((fresh 256 []).status = .running ∧ 254 ≤ (fresh 256 []).pc ∧ ¬ (fresh 256 []).pc ≤ 255) := by decide
theorem witness_StepUnknownOpcode :
    (fresh 253 []).status = .running ∧ (fresh 253 []).pc ≤ 253 ∧
      (fresh 253 []).mem.read (fresh 253 []).pc ∉ (fresh 253 []).config.opcodeMap.bytes := by decide
theorem witness_StepEnabledExactlyWhenRunning : State.reset.status = .running ∧ stopped.status ≠ .running := by decide

theorem witness_AddRule : (0x07#8).toNat < 8 ∧ (0x00#8).toNat < 8 ∧ 8 ≤ (0x08#8).toNat := by decide
theorem witness_MulRule : (0x07#8).toNat < 8 ∧ (0x00#8).toNat < 8 ∧ 8 ≤ (0x08#8).toNat := by decide
theorem witness_CmpRule :
    (0x07#8).toNat < 8 ∧ 8 ≤ (0x08#8).toNat ∧ (flagged true false false).config.cmpFlagUpdate = .sticky ∧
      (clearing true false false).config.cmpFlagUpdate = .clearFirst := by decide
theorem witness_LdiRule : (0x07#8).toNat < 8 ∧ 8 ≤ (0x08#8).toNat := by decide
theorem witness_PrnRule : (0x07#8).toNat < 8 ∧ 8 ≤ (0x08#8).toNat := by decide
/-- SP at both ends and next to them. -/
theorem witness_StackPointerPrimitives :
    (State.reset.setSp 0#8).sp.toNat = 0 ∧ 1 ≤ (State.reset.setSp 1#8).sp.toNat ∧
      (State.reset.setSp 255#8).sp.toNat = 255 ∧ (State.reset.setSp 254#8).sp.toNat ≤ 254 := by decide
/-- PUSH with SP = 1, R7 and another register; SP = 0; index 8. -/
theorem witness_PushRule :
    (0x07#8).toNat < 8 ∧ 1 ≤ (State.reset.setSp 1#8).sp.toNat ∧ (State.reset.setSp 1#8).mem.wf ∧
      (0x06#8).toNat ≠ 7 ∧ (State.reset.setSp 0#8).sp.toNat = 0 ∧ 8 ≤ (0x08#8).toNat := by decide
/-- POP: SP = 254 and 255 for another register; the popped byte 254 and 255 for R7. -/
theorem witness_PopRule :
    ((0x06#8).toNat < 8 ∧ (0x06#8).toNat ≠ 7 ∧ (State.reset.setSp 254#8).sp.toNat ≤ 254) ∧
      ((0x07#8).toNat = 7 ∧ ((State.reset.loadByte 0xF4#8 254#8).mem.read 0xF4).toNat ≤ 254) ∧ 8 ≤ (0x08#8).toNat ∧
      ((0x06#8).toNat < 7 ∧ (State.reset.setSp 255#8).sp.toNat = 255) ∧
      ((0x07#8).toNat = 7 ∧ ((State.reset.loadByte 0xF4#8 255#8).mem.read 0xF4).toNat = 255) := by decide
theorem witness_PushThenPopRestores :
    (0x07#8).toNat < 8 ∧ 1 ≤ (State.reset.setSp 1#8).sp.toNat ∧ (State.reset.setSp 1#8).mem.wf := by decide
/-- A PUSH at pc 0 whose stack cell is each byte of the next fetch window. -/
theorem witness_PushedByteIsFetchedNext :
    State.reset.mem.wf ∧ [3#8, 4#8, 5#8].all (fun sp => runsTo (.push 0x00#8) (State.reset.setSp sp) (fun t =>
      !t.status.isFaulted && t.sp.toNat + 1 == t.pc + (sp.toNat - 2) &&
        (match fetch t with | .ok _ => true | .error _ => false))) = true := by decide
theorem witness_CallRule :
    (0x07#8).toNat < 8 ∧ 1 ≤ (fresh 253 []).sp.toNat ∧ (fresh 253 []).pc ≤ 253 ∧ (fresh 253 []).mem.wf ∧
      (State.reset.setSp 0#8).sp.toNat = 0 ∧ 8 ≤ (0x08#8).toNat := by decide
theorem witness_RetRule :
    (State.reset.setSp 254#8).sp.toNat ≤ 254 ∧ (State.reset.setSp 255#8).sp.toNat = 255 := by decide
theorem witness_JmpRule : (0x07#8).toNat < 8 ∧ 8 ≤ (0x08#8).toNat := by decide
theorem witness_JeqRule :
    (flagged true false false).flags.e = true ∧ (flagged false true true).flags.e = false ∧ (0x07#8).toNat < 8 ∧
      8 ≤ (0x08#8).toNat := by decide
theorem witness_JneRule :
    (flagged true false false).flags.e = true ∧ (flagged false true true).flags.e = false ∧ (0x07#8).toNat < 8 ∧
      8 ≤ (0x08#8).toNat := by decide
/-- The state the CALL leaves is itself one in which the RET may run. -/
theorem witness_CallThenRetReturns :
    (0x07#8).toNat < 8 ∧ 1 ≤ (fresh 253 []).sp.toNat ∧ (fresh 253 []).pc ≤ 253 ∧ (fresh 253 []).mem.wf ∧
      ∃ u, exec (.call 0x07#8) (fresh 253 []) = .next u ∧ u.sp = u.sp ∧
        u.mem.read u.sp.toNat = u.mem.read u.sp.toNat := by
  exact ⟨by decide, by decide, by decide, by decide, _, rfl, rfl, rfl⟩

/-- Every instruction completes at reset without a fault with operands 0 and 1; JEQ and JNE both ways. -/
theorem witness_PcAdvance :
    State.reset.status = .running ∧
      [Instr.halt, .ldi 0#8 1#8, .prn 0#8, .add 0#8 1#8, .mul 0#8 1#8, .cmp 0#8 1#8, .push 0#8, .pop 0#8, .call 0#8,
        .ret, .jmp 0#8, .jeq 0#8, .jne 0#8].all (fun i => runsTo i State.reset (fun t => !t.status.isFaulted) &&
          runsTo i (flagged true true true) (fun t => !t.status.isFaulted)) = true := by decide
/-- An instruction other than CMP, and a step whose window is no CMP. -/
theorem witness_OnlyCmpWritesFlags :
    (∃ t, exec (.add 0#8 1#8) State.reset = .next t) ∧ (Instr.add 0#8 1#8).mnemonic ≠ .cmp ∧
      (∃ t, step State.reset = .next t) ∧ State.reset.pc ≤ 253 ∧
      decode OpcodeMap.standard [0x00#8, 0x00#8, 0x00#8] = .error (.unknownOpcode 0x00#8) :=
  ⟨⟨_, rfl⟩, by decide, ⟨_, rfl⟩, by decide, by decide⟩
/-- Register 6 is neither the destination 0 nor SP. -/
theorem witness_RegisterFrame :
    (6 : Fin 8).val ≠ (0#8 : Byte).toNat ∧ (6 : Fin 8) ≠ 7 ∧ (∃ t, exec (.ldi 0#8 1#8) State.reset = .next t) ∧
      (∃ t, exec (.pop 0#8) State.reset = .next t) ∧ (∃ t, exec (.push 0#8) State.reset = .next t) ∧
      (∃ t, exec (.jeq 0#8) State.reset = .next t) :=
  ⟨by decide, by decide, ⟨_, rfl⟩, ⟨_, rfl⟩, ⟨_, rfl⟩, ⟨_, rfl⟩⟩
theorem witness_MemoryFrameOfNonStoring :
    (∃ t, exec (.pop 0#8) State.reset = .next t) ∧ (Instr.pop 0#8).mnemonic ≠ .push ∧
      (Instr.pop 0#8).mnemonic ≠ .call := ⟨⟨_, rfl⟩, by decide, by decide⟩
/-- A PUSH that stores at 0xF3, beside address 0xF4; and one that cannot. -/
theorem witness_MemoryFrameOfPushAndCall :
    (∃ t u, exec (.push 0#8) State.reset = .next t ∧ spDec State.reset = .ok u ∧ 0xF4 ≠ u.sp.toNat) ∧
      (∃ t e, exec (.call 0#8) (State.reset.setSp 0#8) = .next t ∧ spDec (State.reset.setSp 0#8) = .error e) :=
  ⟨⟨_, _, rfl, rfl, by decide⟩, ⟨_, _, rfl, rfl⟩⟩
theorem witness_OutputStatusAndConfigFrame :
    (∃ t, exec (.pop 0#8) State.reset = .next t) ∧ (Instr.pop 0#8).mnemonic ≠ .prn ∧
      (Instr.pop 0#8).mnemonic ≠ .halt := ⟨⟨_, rfl⟩, by decide, by decide⟩
theorem witness_FaultsArePrecise : ∃ t, step (fresh 254 []) = .next t ∧ t.status.isFaulted = true :=
  ⟨_, rfl, rfl⟩
/-- A step that ends in each kind of fault; PUSH at SP = 0, POP at SP = 255. -/
theorem witness_FaultKindsAndTheirRaisers :
    stepsTo (fresh 254 []) (fun t => t.status == .faulted .memory 256) = true ∧
      stepsTo (fresh 253 [0x47#8, 0x08#8]) (fun t => t.status == .faulted .register 8) = true ∧
      stepsTo (placed (State.reset.setSp 0#8) 253 [0x45#8]) (fun t => t.status == .faulted .stack 0) = true ∧
      stepsTo (placed (State.reset.setSp 255#8) 253 [0x46#8]) (fun t => t.status == .faulted .stack 255) = true := by
  decide
theorem witness_HaltedOnlyByHaltOrUnknownOpcode :
    stepsTo (fresh 253 [0x01#8]) (fun t => t.status == .halted .haltInstr 0#8 && t.successful) = true ∧
      stepsTo (fresh 253 [0x03#8]) (fun t => t.status == .halted .unknownOpcode 3#8) = true := by decide

/-- A run of one step under each configuration, from states with one flag set. -/
theorem witness_StickyFlagsNeverClear :
    (flagged true true true).config.cmpFlagUpdate = .sticky ∧ (flagged true true true).flags.e = true ∧
      (flagged true true true).flags.l = true ∧ (flagged true true true).flags.g = true ∧
      ∃ t, Host.Core.run Sys2Proof.core 1 (flagged true true true) = .next t := ⟨rfl, rfl, rfl, rfl, _, rfl⟩
theorem witness_ClearFirstAtMostOneFlag :
    (clearing true false false).config.cmpFlagUpdate = .clearFirst ∧
      (clearing true false false).flags.e.toNat + (clearing true false false).flags.l.toNat +
        (clearing true false false).flags.g.toNat ≤ 1 ∧
      ∃ t, Host.Core.run Sys2Proof.core 1 (clearing true false false) = .next t := ⟨rfl, by decide, _, rfl⟩

theorem fresh_256_inv : (fresh 256 []).Inv := ⟨by decide, by decide, rfl, by decide⟩
theorem witness_StepKeepsInvariant : (fresh 256 []).Inv ∧ ∃ t, step (fresh 256 []) = .next t :=
  ⟨fresh_256_inv, _, rfl⟩
theorem witness_BootHasInvariant :
    Config.standard.wf = true ∧ ∃ t, boot Config.standard [0x01#8] = .ok t := ⟨by decide, _, rfl⟩
theorem witness_MemoryFaultsReportAddress256 :
    (fresh 256 []).Inv ∧ (fresh 256 []).status = .running ∧
      ∃ t, Host.Core.run Sys2Proof.core 1 (fresh 256 []) = .next t ∧ t.status = .faulted .memory 256 :=
  ⟨fresh_256_inv, rfl, _, rfl, rfl⟩
/-- Two states that differ in L and G and run; and, stopped, fault. -/
theorem witness_LessAndGreaterInfluenceNothing :
    (let forget (s : State) : State := { s with flags := { s.flags with l := false, g := false } };
      forget (flagged true true false) = forget (flagged true false true)) ∧
      (∃ t, Host.Core.run Sys2Proof.core 1 (flagged true true false) = .next t) ∧
      ∃ f, Host.Core.run Sys2Proof.core 2 (flagged true true false) = .fault f := ⟨rfl, ⟨_, rfl⟩, _, rfl⟩
theorem witness_OldLatchesInfluenceNothing :
    (∃ t, Host.Core.run Sys2Proof.core 1 { State.reset with latches := ⟨1#8, 2#8, 3#8⟩ } = .next t) ∧
      ∃ f, Host.Core.run Sys2Proof.core 2 { State.reset with latches := ⟨1#8, 2#8, 3#8⟩ } = .fault f :=
  ⟨⟨_, rfl⟩, _, rfl⟩
theorem witness_RunningStepLatchesItsWindow :
    ∃ t, step (fresh 253 [0x47#8, 0x07#8]) = .next t ∧ t.status.isFaulted = false := ⟨_, rfl, rfl⟩

end Sys2Proof.Tests
end

section
/-! SUPPORT. The state after reset, field by field (70_reset_and_hazards.md R181), and what leaves the flags alone
(10_state.md R30). -/

namespace Sys2Proof.Machine

/-! ## The state after reset -/

namespace State

variable (c : Config)

@[simp] theorem resetWith_pc : (State.resetWith c).pc = 0 := rfl
@[simp] theorem resetWith_mem : (State.resetWith c).mem = [] := rfl
@[simp] theorem resetWith_status : (State.resetWith c).status = .running := rfl

/-- Every register is zero after reset but SP (10_state.md R24). -/
@[simp] theorem resetWith_reg (r : Fin 8) : (State.resetWith c).reg r = if r = 7 then 0xF4#8 else 0x00#8 := by
  fin_cases r <;> rfl

end State

/-! ## The flags -/

@[simp] theorem State.commitLatches_flags (s : State) (w : Latches) : (s.commitLatches w).flags = s.flags := by
  unfold State.commitLatches; split <;> rfl

theorem flags_of_spDec {s t : State} (h : spDec s = .ok t) : t.flags = s.flags := by
  rw [(spDec_ok.mp h).2, State.setSp_flags]

theorem flags_of_spInc {s t : State} (h : spInc s = .ok t) : t.flags = s.flags := by
  rw [(spInc_ok.mp h).2, State.setSp_flags]

/-- No effect but CMP's touches the flags: the stack instructions go through `spDec` or `spInc`, and every other
effect is made of named updates of other fields. -/
theorem Effect.flags_eq {s t : State} {i : Instr} (h : Effect s i t) (hi : i.mnemonic ≠ .cmp) :
    t.flags = s.flags := by
  cases h with
  | cmp => exact absurd rfl hi
  | push _ hu | call _ hu => simpa using flags_of_spDec hu
  | pop _ hu hv => simpa [hu] using flags_of_spInc hv
  | ret hu => simpa using flags_of_spInc hu
  | _ => simp

theorem exec_flags {s t : State} {i : Instr} (h : exec i s = .next t) (hi : i.mnemonic ≠ .cmp) :
    t.flags = s.flags :=
  (exec_effect h).flags_eq hi

/-- CMP is the one instruction with CMP's mnemonic. -/
theorem mnemonic_eq_cmp {i : Instr} : i.mnemonic = .cmp ↔ ∃ a b, i = .cmp a b := by
  cases i <;> simp [Instr.mnemonic]

/-- A step whose window is not a CMP leaves the flags alone; a step that cannot fetch has no window. -/
theorem step_flags {s t : State} (h : step s = .next t)
    (hw : s.pc ≤ 253 → ∀ a b rest, decode s.config.opcodeMap
      [s.mem.read s.pc, s.mem.read (s.pc + 1), s.mem.read (s.pc + 2)] ≠ .ok (.cmp a b, rest)) :
    t.flags = s.flags := by
  obtain ⟨-, ⟨-, rfl⟩ | ⟨hpc, ⟨-, rfl⟩ | ⟨i, rest, u, hd, hu, rfl⟩⟩⟩ := step_next.mp h
  · exact State.takeFault_flags ..
  · simp
  · have hi : i.mnemonic ≠ .cmp := fun hcmp => by
      obtain ⟨a, b, rfl⟩ := mnemonic_eq_cmp.mp hcmp
      exact hw hpc a b rest hd
    rw [State.commitLatches_flags, exec_flags hu hi]

/-! ## The obligations -/

/-- Settles O39: by the effects of the instructions, and by what a step can do. -/
theorem onlyCmpWritesFlags : Obligations.OnlyCmpWritesFlags :=
  ⟨fun _ _ _ => exec_flags, fun _ _ => step_flags⟩

/-- Settles O1, by the register read after reset. -/
theorem resetRegisters : Obligations.ResetRegisters := by
  intro c
  refine ⟨fun r hr => ?_, ?_, rfl⟩
  · rw [State.resetWith_reg, if_neg hr]
  · rw [State.resetWith_reg, if_pos rfl]

/-- Settles O2, by the two fields after reset. -/
theorem resetPcAndStatus : Obligations.ResetPcAndStatus :=
  fun c => ⟨State.resetWith_pc c, State.resetWith_status c⟩

/-- Settles O3: memory lists no cell after reset, and the bounds check is `memRead`'s own. -/
theorem resetMemoryIsZero : Obligations.ResetMemoryIsZero := by
  intro c a
  refine ⟨fun ha => memRead_ok.mpr ⟨ha, ?_⟩, fun ha => memRead_error.mpr ⟨ha, rfl⟩⟩
  rw [State.resetWith_mem, Memory.read_nil, Memory.unlisted]

end Sys2Proof.Machine
end

section
/-! SUPPORT. What a loaded image leaves in memory (20_memory.md R41), and what boot answers
(70_reset_and_hazards.md R182). -/

namespace Sys2Proof.Machine

/-! ## Reading placed bytes -/

namespace Memory

/-- Placing bytes leaves the addresses before them alone, in any memory. -/
theorem read_place_before {a b : Nat} (h : a < b) (m : Memory) (vs : List Byte) :
    (m.place b vs).read a = m.read a := by
  induction vs generalizing m b with
  | nil => rfl
  | cons v vs ih =>
    rw [Memory.place, ih (Nat.lt_succ_of_lt h), read_write_other (Nat.ne_of_lt h)]

/-- From the first placed address on, memory reads the placed bytes, and past them what it held before. -/
theorem read_place {m : Memory} (h : m.wf) {b : Nat} {vs : List Byte} (hb : b + vs.length ≤ 256) (i : Nat) :
    (m.place b vs).read (b + i) = vs.getD i (m.read (b + i)) := by
  induction vs generalizing m b i with
  | nil => rfl
  | cons v vs ih =>
    rw [List.length_cons] at hb
    rw [Memory.place]
    cases i with
    | zero => rw [Nat.add_zero b, read_place_before (Nat.lt_add_one b), read_write_same h, List.getD_cons_zero]
    | succ i =>
      have hi : b + (i + 1) = (b + 1) + i := by omega
      rw [hi, ih (write_wf h (by omega) v) (by omega), read_write_other (by omega), List.getD_cons_succ]

end Memory

/-! ## Boot -/

theorem State.loadImage_ok {s t : State} {image : List Byte} :
    s.loadImage image = .ok t ↔ image.length ≤ 256 ∧ t = s.setMem (s.mem.place 0 image) := by
  unfold State.loadImage
  split
  · next h => simp [Nat.not_le_of_lt h]
  · next h => simp [Nat.le_of_not_lt h, eq_comm]

/-- Boot answers a state exactly for the images that fit, and then only memory differs from reset. -/
theorem boot_ok {c : Config} {t : State} {image : List Byte} :
    boot c image = .ok t ↔
      image.length ≤ 256 ∧ t = (State.resetWith c).setMem (Memory.place [] 0 image) :=
  State.loadImage_ok

/-! ## The obligation -/

/-- Settles O5: boot places the image in the memory of reset, which lists no cell. -/
theorem loadedImageInMemory : Obligations.LoadedImageInMemory := by
  intro c image hlen
  refine ⟨_, boot_ok.mpr ⟨hlen, rfl⟩, fun a => ?_, rfl⟩
  have hread := Memory.read_place Memory.nil_wf (b := 0) (vs := image) (by omega) a
  rwa [Nat.zero_add, Memory.read_nil, Memory.unlisted] at hread

end Sys2Proof.Machine
end

section
/-! SUPPORT. Decoding and encoding read each other back (30_encoding.md sections 1 to 4). -/

namespace Sys2Proof

/-! ## Operand bytes -/

/-- The operands decode exactly where an instruction's own operand bytes stand (30_encoding.md R61). -/
theorem decodeOperands_ok {mn : Mnemonic} {tail rest : List Byte} {i : Instr} :
    decodeOperands mn tail = .ok (i, rest) ↔ i.mnemonic = mn ∧ tail = i.operandBytes ++ rest := by
  constructor
  · intro h
    unfold decodeOperands at h
    split at h <;> cases h <;> exact ⟨rfl, rfl⟩
  · rintro ⟨rfl, rfl⟩
    cases i <;> rfl

/-- The operand decoder knows the mnemonic already: it can only run out of bytes. -/
theorem decodeOperands_error {mn : Mnemonic} {tail : List Byte} {e : DecodeError}
    (h : decodeOperands mn tail = .error e) : e = .truncated := by
  unfold decodeOperands at h
  split at h <;> cases h
  all_goals rfl

theorem Instr.operandBytes_length (i : Instr) : i.operandBytes.length = i.mnemonic.operandCount := by
  cases i <;> rfl

/-! ## Whole instructions -/

theorem decode_cons_ok {m : OpcodeMap} {ir : Byte} {tail rest : List Byte} {i : Instr} :
    decode m (ir :: tail) = .ok (i, rest) ↔
      m.lookup ir = some i.mnemonic ∧ tail = i.operandBytes ++ rest := by
  cases h : m.lookup ir with
  | none => simp [decode, h]
  | some mn =>
    simp only [decode, h, Option.some.injEq]
    rw [decodeOperands_ok, eq_comm]

theorem decode_encode {m : OpcodeMap} (h : m.wf = true) (i : Instr) (rest : List Byte) :
    decode m (encode m i ++ rest) = .ok (i, rest) :=
  decode_cons_ok.mpr ⟨OpcodeMap.lookup_byteOf h i.mnemonic, rfl⟩

theorem eq_encode_of_decode {m : OpcodeMap} {bytes rest : List Byte} {i : Instr}
    (h : decode m bytes = .ok (i, rest)) : bytes = encode m i ++ rest := by
  cases bytes with
  | nil => cases h
  | cons ir tail =>
    obtain ⟨hl, rfl⟩ := decode_cons_ok.mp h
    rw [encode, OpcodeMap.byteOf_of_lookup hl, List.cons_append]

theorem decode_unknownOpcode {m : OpcodeMap} {b : Byte} {rest : List Byte} :
    decode m (b :: rest) = .error (.unknownOpcode b) ↔ b ∉ m.bytes := by
  rw [← OpcodeMap.lookup_eq_none]
  cases h : m.lookup b with
  | none => simp [decode, h]
  | some mn =>
    have hne : decodeOperands mn rest ≠ .error (.unknownOpcode b) := fun hd => nomatch decodeOperands_error hd
    simp [decode, h, hne]

/-- The LS-8 standard numbering gives no byte to two mnemonics. -/
theorem OpcodeMap.standard_wf : OpcodeMap.standard.wf = true := by decide

/-- Under the default map every encoding decodes to its instruction and leaves nothing. -/
theorem decode_standard (i : Instr) : decode OpcodeMap.standard (encode OpcodeMap.standard i) = .ok (i, []) := by
  simpa using decode_encode OpcodeMap.standard_wf i []

/-! ## The obligations -/

/-- Settles O9: the lookup finds the opcode of an injective map, and the operands are read back. -/
theorem decodeOfEncode : Obligations.DecodeOfEncode :=
  fun _ i rest h => decode_encode h i rest

/-- Settles O10: a decoded opcode is the mnemonic's own, and the operand bytes are the instruction's. -/
theorem encodeOfDecode : Obligations.EncodeOfDecode :=
  fun _ _ _ _ => eq_encode_of_decode

/-- Settles O13: the window's last two bytes are the operand bytes and the rest, cut where the operand count says. -/
theorem unusedOperandBytesAreIgnored : Obligations.UnusedOperandBytesAreIgnored := by
  intro m ir a b a' b' i rest h
  obtain ⟨hl, hab⟩ := decode_cons_ok.mp h
  rw [← i.operandBytes_length]
  refine ⟨fun h0 => ?_, fun h1 => ?_, fun h2 => ?_⟩
  · refine decode_cons_ok.mpr ⟨hl, ?_⟩
    rw [List.length_eq_zero_iff.mp h0, List.nil_append]
  · obtain ⟨x, hx⟩ := List.length_eq_one_iff.mp h1
    rw [hx, List.singleton_append, List.cons.injEq] at hab
    refine decode_cons_ok.mpr ⟨hl, ?_⟩
    rw [hx, hab.1, List.singleton_append]
  · have hlen := congrArg List.length hab
    rw [List.length_append, h2] at hlen
    exact List.length_eq_zero_iff.mp (Nat.add_left_cancel hlen.symm)

/-- Settles O8: each word is the encoding of its instruction under the standard map, which is injective. -/
theorem decodeStandardWords : Obligations.DecodeStandardWords :=
  ⟨decode_standard .halt, decode_standard (.ldi _ _), decode_standard (.prn _), decode_standard (.add _ _),
    decode_standard (.mul _ _), decode_standard (.cmp _ _), decode_standard (.push _), decode_standard (.pop _),
    decode_standard (.call _), decode_standard .ret, decode_standard (.jmp _), decode_standard (.jeq _),
    decode_standard (.jne _)⟩

/-- Settles O11: only a failed lookup names an unknown opcode; 256 - 13 bytes are outside the standard map. -/
theorem unknownOpcodesAreTheBytesOutsideTheMap : Obligations.UnknownOpcodesAreTheBytesOutsideTheMap :=
  ⟨fun _ _ _ => decode_unknownOpcode, by decide +kernel⟩

/-- Settles O12, by the table of the thirteen mnemonics. -/
theorem opcodeBitsHoldOperandCount : Obligations.OpcodeBitsHoldOperandCount := by
  intro mn
  cases mn <;> rfl

end Sys2Proof
end

section
/-! SUPPORT. What an instruction and a step leave alone, field by field, over the effects of `exec`; and that every
instruction answers a next state. -/

namespace Sys2Proof

/-- The numbers of the registers an instruction may write (10_state.md R23). -/
def Instr.destinations : Instr → List Nat
  | .ldi a _ | .add a _ | .mul a _ => [a.toNat]
  | .pop a => [a.toNat, 7]
  | .push _ | .call _ | .ret => [7]
  | .halt | .prn _ | .cmp _ _ | .jmp _ | .jeq _ | .jne _ => []

end Sys2Proof

namespace Sys2Proof.Machine

/-! ## Every instruction answers -/

theorem commit_answers (s : State) (r : Except OutOfBounds State) : ∃ t, commit s r = .next t := by
  cases r with
  | ok t => exact ⟨t, commit_ok s t⟩
  | error e => exact ⟨_, commit_error s e⟩

theorem exec_answers (i : Instr) (s : State) : ∃ t, exec i s = .next t := by
  obtain ⟨r, hr⟩ := exec_eq_commit i s
  exact hr ▸ commit_answers s r

/-! ## Latches are committed last -/

namespace State

variable (s : State) (w : Latches)

@[simp] theorem commitLatches_pc : (s.commitLatches w).pc = s.pc := by
  unfold State.commitLatches; split <;> rfl
@[simp] theorem commitLatches_mem : (s.commitLatches w).mem = s.mem := by
  unfold State.commitLatches; split <;> rfl
@[simp] theorem commitLatches_config : (s.commitLatches w).config = s.config := by
  unfold State.commitLatches; split <;> rfl

theorem commitLatches_of_faulted {s : State} (h : s.status.isFaulted = true) : s.commitLatches w = s :=
  if_pos h

theorem commitLatches_of_not_faulted {s : State} (h : s.status.isFaulted = false) :
    s.commitLatches w = s.setLatches w :=
  if_neg (by simp [h])

end State

/-! ## Frames of the effects -/

namespace Effect

variable {s t : State} {i : Instr}

/-- No instruction writes the configuration or the latches. -/
theorem config_latches_eq (h : Effect s i t) : t.config = s.config ∧ t.latches = s.latches := by
  cases h with
  | push _ hu | call _ hu => simp [spDec_ok.mp hu]
  | pop _ hu hv => simp [spInc_ok.mp hv, hu]
  | ret hu => simp [spInc_ok.mp hu]
  | _ => simp

theorem config_eq (h : Effect s i t) : t.config = s.config := h.config_latches_eq.1

/-- The output grows by the byte PRN emits, and otherwise stays. -/
theorem output_cases (h : Effect s i t) :
    t.output = s.output ∨ i.mnemonic = .prn ∧ ∃ v, t.output = s.output ++ [v] := by
  cases h with
  | prn => exact .inr ⟨rfl, _, rfl⟩
  | push _ hu | call _ hu => simp [spDec_ok.mp hu]
  | pop _ hu hv => simp [spInc_ok.mp hv, hu]
  | ret hu => simp [spInc_ok.mp hu]
  | _ => simp

/-- Only PUSH and CALL store. -/
theorem mem_eq (h : Effect s i t) (hpush : i.mnemonic ≠ .push) (hcall : i.mnemonic ≠ .call) : t.mem = s.mem := by
  cases h with
  | push | call => contradiction
  | pop _ hu hv => simp [spInc_ok.mp hv, hu]
  | ret hu => simp [spInc_ok.mp hu]
  | _ => simp

/-- PUSH and CALL store at the SP that `spDec` gives them, and nowhere where it raises. -/
theorem mem_cases (h : Effect s i t) (hi : i.mnemonic = .push ∨ i.mnemonic = .call) :
    t.mem = s.mem ∨ ∃ u v, spDec s = .ok u ∧ t.mem = s.mem.write u.sp.toNat v := by
  cases h with
  | push _ hu | call _ hu =>
    obtain ⟨-, rfl⟩ := spDec_ok.mp hu
    exact .inr ⟨_, _, hu, rfl⟩
  | registerFault | stackLow | stackHigh => exact .inl rfl
  | _ => rcases hi with hi | hi <;> cases hi

end Effect

/-- A register that is no destination keeps its value. -/
theorem Effect.reg_eq {s t : State} {i : Instr} (h : Effect s i t) {r : Fin 8} (hr : r.val ∉ i.destinations) :
    t.reg r = s.reg r := by
  cases h with
  | ldi | add | mul => simp_all [Instr.destinations, Fin.ext_iff]
  | push _ hu | call _ hu => simp_all [Instr.destinations, Fin.ext_iff, spDec_ok.mp hu]
  | pop _ hu hv => simp_all [Instr.destinations, Fin.ext_iff, spInc_ok.mp hv]
  | ret hu => simp_all [Instr.destinations, Fin.ext_iff, spInc_ok.mp hu]
  | _ => simp

theorem exec_reg {s t : State} {i : Instr} (h : exec i s = .next t) {r : Fin 8} (hr : r.val ∉ i.destinations) :
    t.reg r = s.reg r :=
  (exec_effect h).reg_eq hr

/-! ## Status -/

/-- What the three raises of an instruction are (60_exceptions.md R161). -/
inductive Raise (s : State) (i : Instr) : OutOfBounds → Prop
  | register {r : Byte} (h : 8 ≤ r.toNat) (hr : r ∈ i.registerOperands) :
      Raise s i { kind := .register, info := r.toNat }
  | stackLow (h : s.sp.toNat = 0) (hi : i.mnemonic = .push ∨ i.mnemonic = .call) :
      Raise s i { kind := .stack, info := 0 }
  | stackHigh (hi : i.mnemonic = .pop ∨ i.mnemonic = .ret) : Raise s i { kind := .stack, info := 255 }

/-- An instruction raises, halts, or leaves the status alone. -/
theorem Effect.status_cases {s t : State} {i : Instr} (h : Effect s i t) :
    (∃ e, Raise s i e ∧ t = s.takeFault e) ∨ i = .halt ∧ t = s.halt .haltInstr 0x00#8 ∨ t.status = s.status := by
  cases h with
  | registerFault h hr => exact .inl ⟨_, .register h hr, rfl⟩
  | stackLow h hi => exact .inl ⟨_, .stackLow h hi, rfl⟩
  | stackHigh hi => exact .inl ⟨_, .stackHigh hi, rfl⟩
  | halt => exact .inr (.inl ⟨rfl, rfl⟩)
  | push _ hu | call _ hu => simp [spDec_ok.mp hu]
  | pop _ hu hv => simp [spInc_ok.mp hv, hu]
  | ret hu => simp [spInc_ok.mp hu]
  | _ => simp

/-! ## The obligations -/

/-- Settles O18: a meaning is a commit, and a commit answers a next state whether a statement raised or not. -/
theorem execAnswersNextState : Obligations.ExecAnswersNextState := exec_answers

/-- Settles O40, by the registers each instruction may write. -/
theorem registerFrame : Obligations.RegisterFrame := by
  intro s t a b r
  refine ⟨?_, ?_, ?_, ?_⟩
  · rintro (h | h | h) hr <;> exact exec_reg h (mt List.mem_singleton.mp hr)
  · intro h ha h7
    have h7 : r.val ≠ 7 := Fin.val_ne_of_ne h7
    exact exec_reg h (by simp [Instr.destinations, ha, h7])
  · rintro (h | h | h) h7 <;> exact exec_reg h (mt List.mem_singleton.mp (Fin.val_ne_of_ne h7))
  · rintro (h | h | h | h | h | h) <;> exact exec_reg h List.not_mem_nil

/-- Settles O41: no effect but PUSH's and CALL's touches the memory. -/
theorem memoryFrameOfNonStoring : Obligations.MemoryFrameOfNonStoring := by
  intro s t i h hpush hcall x
  rw [(exec_effect h).mem_eq hpush hcall]

/-- Settles O42: the one store is at the decremented SP. -/
theorem memoryFrameOfPushAndCall : Obligations.MemoryFrameOfPushAndCall := by
  intro s t a h
  have hmem : t.mem = s.mem ∨ ∃ u v, spDec s = .ok u ∧ t.mem = s.mem.write u.sp.toNat v := by
    rcases h with h | h
    · exact (exec_effect h).mem_cases (.inl rfl)
    · exact (exec_effect h).mem_cases (.inr rfl)
  rcases hmem with hmem | ⟨u, v, hu, hmem⟩ <;> rw [hmem]
  · exact ⟨fun _ _ _ _ => rfl, fun _ _ _ => rfl⟩
  · refine ⟨fun u' hu' x hx => Memory.read_write_other ?_ _ v, fun e he => ?_⟩
    · cases hu.symm.trans hu'
      exact hx
    · cases hu.symm.trans he

/-- Settles O43, field by field over the effects. -/
theorem outputStatusAndConfigFrame : Obligations.OutputStatusAndConfigFrame := by
  intro s t i h
  have he := exec_effect h
  refine ⟨fun hprn => ?_, he.output_cases.imp_right And.right, fun hhalt => ?_, he.config_latches_eq⟩
  · exact he.output_cases.resolve_right fun hp => hprn hp.1
  · rcases he.status_cases with ⟨e, -, rfl⟩ | ⟨rfl, -⟩ | hs
    · exact .inr rfl
    · exact absurd rfl hhalt
    · exact .inl hs

end Sys2Proof.Machine
end

section
/-! SUPPORT. Simulations: a relation between states that agree on everything execution reads, and that every update
keeps, is kept by every instruction, every step and every run. -/

namespace Sys2Proof.Machine

/-! ## Outcomes that match under a relation -/

/-- Two working copies that raise alike, or are related. -/
inductive ExceptMatches (R : State → State → Prop) : Except OutOfBounds State → Except OutOfBounds State → Prop
  | ok {t t' : State} (h : R t t') : ExceptMatches R (.ok t) (.ok t')
  | error (e : OutOfBounds) : ExceptMatches R (.error e) (.error e)

/-- Two outcomes that stop alike, or answer related states. -/
inductive Matches (R : State → State → Prop) :
    Host.Outcome State Fault Refusal → Host.Outcome State Fault Refusal → Prop
  | next {t t' : State} (h : R t t') : Matches R (.next t) (.next t')
  | fault (f : Fault) : Matches R (.fault f) (.fault f)
  | refused (r : Refusal) : Matches R (.refused r) (.refused r)

/-! ## Sequencing -/

namespace ExceptMatches

variable {R : State → State → Prop}

theorem bind {x x' : Except OutOfBounds State} {f f' : State → Except OutOfBounds State} (hx : ExceptMatches R x x')
    (hf : ∀ {t t'}, R t t' → ExceptMatches R (f t) (f' t')) : ExceptMatches R (x >>= f) (x' >>= f') := by
  cases hx with
  | ok h => exact hf h
  | error e => exact .error e

/-- Two computations that read the same value go on from it alike. -/
theorem bind_read {q q' : Except OutOfBounds Byte} {f f' : Byte → Except OutOfBounds State} (hq : q = q')
    (hf : ∀ v, ExceptMatches R (f v) (f' v)) : ExceptMatches R (q >>= f) (q' >>= f') := by
  subst hq
  cases q with
  | ok v => exact hf v
  | error e => exact .error e

end ExceptMatches

/-- Related states agree on what execution reads, and every named update keeps them related. -/
structure Simulation (R : State → State → Prop) : Prop where
  regs   {s s' : State} (h : R s s') : s.regs = s'.regs
  pc     {s s' : State} (h : R s s') : s.pc = s'.pc
  mem    {s s' : State} (h : R s s') : s.mem = s'.mem
  flagE  {s s' : State} (h : R s s') : s.flags.e = s'.flags.e
  status {s s' : State} (h : R s s') : s.status = s'.status
  config {s s' : State} (h : R s s') : s.config = s'.config
  setReg {s s' : State} (h : R s s') (r : Fin 8) (v : Byte) : R (s.setReg r v) (s'.setReg r v)
  setPc  {s s' : State} (h : R s s') (n : Nat) : R (s.setPc n) (s'.setPc n)
  setMem {s s' : State} (h : R s s') (m : Memory) : R (s.setMem m) (s'.setMem m)
  emit   {s s' : State} (h : R s s') (v : Byte) : R (s.emit v) (s'.emit v)
  setStatus  {s s' : State} (h : R s s') (st : Status) : R (s.setStatus st) (s'.setStatus st)
  setLatches {s s' : State} (h : R s s') (w : Latches) : R (s.setLatches w) (s'.setLatches w)
  compare {s s' : State} (h : R s s') (mode : CmpFlagUpdate) (va vb : Byte) :
    R (s.setFlags (compareFlags mode va vb s.flags)) (s'.setFlags (compareFlags mode va vb s'.flags))

namespace Simulation

variable {R : State → State → Prop} (hR : Simulation R) {s s' : State}

include hR

theorem commit {r r' : Except OutOfBounds State} (h : R s s') (hr : ExceptMatches R r r') :
    Matches R (commit s r) (commit s' r') := by
  cases hr with
  | ok ht => exact .next ht
  | error e => exact .next (hR.setStatus h _)

/-! ## The shared operations -/

theorem reg (h : R s s') (r : Fin 8) : s.reg r = s'.reg r := by
  rw [State.reg, State.reg, hR.regs h]

theorem sp (h : R s s') : s.sp = s'.sp := hR.reg h 7

theorem readReg (h : R s s') (i : Byte) : readReg i s = readReg i s' := by
  simp only [Machine.readReg, hR.reg h]

theorem memRead (h : R s s') (a : Nat) : memRead a s = memRead a s' := by
  rw [Machine.memRead, Machine.memRead, hR.mem h]

theorem fetch (h : R s s') : fetch s = fetch s' := by
  simp only [Machine.fetch, hR.pc h, hR.memRead h]

theorem advance (h : R s s') (n : Nat) : R (s.advance n) (s'.advance n) := by
  rw [State.advance, State.advance, hR.pc h]
  exact hR.setPc h _

theorem writeReg (h : R s s') (i v : Byte) : ExceptMatches R (writeReg i v s) (writeReg i v s') := by
  unfold Machine.writeReg
  split
  · exact .ok (hR.setReg h _ v)
  · exact .error _

theorem memWrite (h : R s s') (a : Nat) (v : Byte) : ExceptMatches R (memWrite a v s) (memWrite a v s') := by
  rw [Machine.memWrite, Machine.memWrite, hR.mem h]
  split
  · exact .error _
  · exact .ok (hR.setMem h _)

theorem spDec (h : R s s') : ExceptMatches R (spDec s) (spDec s') := by
  rw [Machine.spDec, Machine.spDec, hR.sp h]
  split
  · exact .error _
  · exact .ok (hR.setReg h 7 _)

theorem spInc (h : R s s') : ExceptMatches R (spInc s) (spInc s') := by
  rw [Machine.spInc, Machine.spInc, hR.sp h]
  split
  · exact .error _
  · exact .ok (hR.setReg h 7 _)

theorem jumpTo (h : R s s') (i : Byte) : ExceptMatches R (jumpTo i s) (jumpTo i s') :=
  .bind_read (hR.readReg h i) fun _ => .ok (hR.setPc h _)

theorem aluInto (h : R s s') (f : Byte → Byte → Byte) (a b : Byte) :
    ExceptMatches R (aluInto f a b s) (aluInto f a b s') :=
  .bind_read (hR.readReg h a) fun _ => .bind_read (hR.readReg h b) fun _ =>
    .bind (hR.writeReg h a _) fun ht => .ok (hR.advance ht 3)

/-! ## Instructions, steps and runs -/

/-- Every instruction keeps the relation, statement by statement. -/
theorem exec (h : R s s') (i : Instr) : Matches R (exec i s) (exec i s') := by
  cases i with
  | halt => exact .next (hR.setStatus h _)
  | ldi a b => exact hR.commit h (.bind (hR.writeReg h a b) fun ht => .ok (hR.advance ht 3))
  | prn a => exact hR.commit h (.bind_read (hR.readReg h a) fun v => .ok (hR.advance (hR.emit h v) 2))
  | add a b => exact hR.commit h (hR.aluInto h aluAdd a b)
  | mul a b => exact hR.commit h (hR.aluInto h aluMul a b)
  | cmp a b =>
    refine hR.commit h (.bind_read (hR.readReg h a) fun va => .bind_read (hR.readReg h b) fun vb => .ok ?_)
    rw [hR.config h]
    exact hR.advance (hR.compare h _ va vb) 3
  | push a =>
    refine hR.commit h (.bind (hR.spDec h) fun ht => .bind_read (hR.readReg ht a) fun v => ?_)
    rw [hR.sp ht]
    exact .bind (hR.memWrite ht _ v) fun hu => .ok (hR.advance hu 2)
  | pop a =>
    rw [Machine.exec, Machine.exec, execPop, execPop, hR.sp h]
    exact hR.commit h (.bind_read (hR.memRead h _) fun v => .bind (hR.writeReg h a v) fun ht =>
      .bind (hR.spInc ht) fun hu => .ok (hR.advance hu 2))
  | call a =>
    refine hR.commit h (.bind (hR.spDec h) fun ht => ?_)
    rw [hR.sp ht, returnAddress, returnAddress, hR.pc ht]
    exact .bind (hR.memWrite ht _ _) fun hu => hR.jumpTo hu a
  | ret =>
    rw [Machine.exec, Machine.exec, execRet, execRet, hR.sp h]
    exact hR.commit h (.bind_read (hR.memRead h _) fun v => .bind (hR.spInc h) fun ht => .ok (hR.setPc ht _))
  | jmp a => exact hR.commit h (hR.jumpTo h a)
  | jeq a =>
    rw [Machine.exec, Machine.exec, execJeq, execJeq, hR.flagE h]
    refine hR.commit h ?_
    split
    · exact hR.jumpTo h a
    · exact .ok (hR.advance h 2)
  | jne a =>
    rw [Machine.exec, Machine.exec, execJne, execJne, hR.flagE h]
    refine hR.commit h ?_
    split
    · exact .ok (hR.advance h 2)
    · exact hR.jumpTo h a

theorem latchOutcome {o o' : Host.Outcome State Fault Refusal} (h : Matches R o o') (w : Latches) :
    Matches R (latchOutcome w o) (latchOutcome w o') := by
  cases h with
  | next ht =>
    refine .next ?_
    rw [State.commitLatches, State.commitLatches, hR.status ht]
    split
    · exact ht
    · exact hR.setLatches ht w
  | fault f => exact .fault f
  | refused r => exact .refused r

theorem step (h : R s s') : Matches R (step s) (step s') := by
  rw [Machine.step, Machine.step, hR.status h, hR.fetch h, hR.config h]
  split
  · exact .fault _
  · exact .fault _
  · split
    · exact .next (hR.setStatus h _)
    · split
      · exact hR.latchOutcome (hR.exec h _) _
      · exact .next (hR.setLatches (hR.setStatus h _) _)

theorem run (h : R s s') (k : Nat) :
    Matches R (Host.Core.run Sys2Proof.core k s) (Host.Core.run Sys2Proof.core k s') := by
  induction k generalizing s s' with
  | zero => exact .next h
  | succ k ih =>
    have hstep := hR.step h
    generalize ho : Machine.step s = o, ho' : Machine.step s' = o' at hstep
    cases hstep with
    | next ht =>
      rw [run_succ_of_next ho, run_succ_of_next ho']
      exact ih ht
    | fault f =>
      rw [run_succ_of_fault ho, run_succ_of_fault ho']
      exact .fault f
    | refused r =>
      rw [run_succ_of_refused ho, run_succ_of_refused ho']
      exact .refused r

end Simulation

/-- What matching runs mean for each outcome of the first. -/
theorem Matches.transfer {R : State → State → Prop} {o o' : Host.Outcome State Fault Refusal} (h : Matches R o o') :
    (∀ t, o = .next t → ∃ t', o' = .next t' ∧ R t t') ∧ (∀ f, o = .fault f → o' = .fault f) := by
  cases h with
  | next h => exact ⟨fun t ht => by cases ht; exact ⟨_, rfl, h⟩, fun f hf => nomatch hf⟩
  | fault f => exact ⟨fun t ht => (nomatch ht), fun _ hf => hf⟩
  | refused r => exact ⟨fun t ht => (nomatch ht), fun f hf => (nomatch hf)⟩

/-! ## What CMP computes -/

/-- Each flag is what it starts from, or its own comparison (40_alu.md R83). -/
theorem compareFlags_eq (mode : CmpFlagUpdate) (va vb : Byte) (f : Flags) :
    compareFlags mode va vb f =
      { e := (f.beforeCompare mode).e || decide (va.toNat = vb.toNat)
        l := (f.beforeCompare mode).l || decide (va.toNat < vb.toNat)
        g := (f.beforeCompare mode).g || decide (vb.toNat < va.toNat) } := by
  rcases Nat.lt_trichotomy va.toNat vb.toNat with h | h | h
  · simp [compareFlags, h, Nat.ne_of_lt h, Nat.le_of_lt h]
  · simp [compareFlags, h]
  · simp [compareFlags, h, Nat.ne_of_gt h, Nat.not_lt_of_gt h]

/-! ## The two relations -/

/-- A state with L and G forgotten. -/
def State.forgetLG (s : State) : State := s.setFlags { s.flags with l := false, g := false }

theorem State.forgetLG_setFlags {s s' : State} (h : s.forgetLG = s'.forgetLG) {f f' : Flags} (hf : f.e = f'.e) :
    (s.setFlags f).forgetLG = (s'.setFlags f').forgetLG :=
  calc (s.setFlags f).forgetLG
    _ = s.forgetLG.setFlags { f with l := false, g := false } := rfl
    _ = s'.forgetLG.setFlags { f' with l := false, g := false } := by rw [h, hf]

/-- E is computed from E alone, so states that differ in L and G stay so (10_state.md section 3). -/
theorem simulation_forgetLG : Simulation fun s s' => s.forgetLG = s'.forgetLG where
  regs h := congrArg (·.regs) h
  pc h := congrArg (·.pc) h
  mem h := congrArg (·.mem) h
  flagE h := congrArg (·.flags.e) h
  status h := congrArg (·.status) h
  config h := congrArg (·.config) h
  setReg h r v := congrArg (·.setReg r v) h
  setPc h n := congrArg (·.setPc n) h
  setMem h m := congrArg (·.setMem m) h
  emit h v := congrArg (·.emit v) h
  setStatus h st := congrArg (·.setStatus st) h
  setLatches h w := congrArg (·.setLatches w) h
  compare {s s'} h mode va vb := by
    have he : s.flags.e = s'.flags.e := congrArg (·.flags.e) h
    refine State.forgetLG_setFlags h ?_
    rw [compareFlags_eq, compareFlags_eq]
    cases mode <;> simp [Flags.beforeCompare, he]

/-- No instruction reads a latch (10_state.md section 5). -/
theorem simulation_setLatches (w : Latches) : Simulation fun s s' => s.setLatches w = s'.setLatches w where
  regs h := congrArg (·.regs) h
  pc h := congrArg (·.pc) h
  mem h := congrArg (·.mem) h
  flagE h := congrArg (·.flags.e) h
  status h := congrArg (·.status) h
  config h := congrArg (·.config) h
  setReg h r v := congrArg (·.setReg r v) h
  setPc h n := congrArg (·.setPc n) h
  setMem h m := congrArg (·.setMem m) h
  emit h v := congrArg (·.emit v) h
  setStatus h st := congrArg (·.setStatus st) h
  setLatches h _ := h
  compare h mode va vb := congrArg (fun u => u.setFlags (compareFlags mode va vb u.flags)) h

/-! ## The obligations -/

/-- Settles O51: agreement up to L and G is a simulation. -/
theorem lessAndGreaterInfluenceNothing : Obligations.LessAndGreaterInfluenceNothing :=
  fun k _ _ h => (simulation_forgetLG.run h k).transfer

/-- Settles O52: agreement up to the latches is a simulation. -/
theorem oldLatchesInfluenceNothing : Obligations.OldLatchesInfluenceNothing :=
  fun k s w w' => ((simulation_setLatches w).run (s := s.setLatches w) (s' := s.setLatches w') rfl k).transfer

end Sys2Proof.Machine
end

section
/-! SUPPORT. How a step ends: its faults, its halts, its latches (41_loop.md, 60_exceptions.md); and the invariant that
every step keeps. -/

namespace Sys2Proof.Machine

/-! ## Faults and halts of a step -/

/-- What a step from a state may raise: its fetch does, or the instruction it decodes. -/
def State.StepRaises (s : State) (e : OutOfBounds) : Prop :=
  254 ≤ s.pc ∧ e = { kind := .memory, info := max s.pc 256 } ∨
  s.pc ≤ 253 ∧ ∃ i rest,
    decode s.config.opcodeMap [s.mem.read s.pc, s.mem.read (s.pc + 1), s.mem.read (s.pc + 2)] = .ok (i, rest) ∧
      Raise s i e

/-- A step ends Faulted only by taking what it raised. -/
theorem step_faulted {s t : State} (h : step s = .next t) (ht : t.status.isFaulted = true) :
    ∃ e, s.StepRaises e ∧ t = s.takeFault e := by
  obtain ⟨hs, ⟨hpc, rfl⟩ | ⟨hpc, ⟨-, rfl⟩ | ⟨i, rest, u, hd, hu, rfl⟩⟩⟩ := step_next.mp h
  · exact ⟨_, .inl ⟨hpc, rfl⟩, rfl⟩
  · nomatch ht
  · rw [State.commitLatches_status] at ht
    rw [State.commitLatches_of_faulted _ ht]
    rcases (exec_effect hu).status_cases with ⟨e, he, rfl⟩ | ⟨-, rfl⟩ | hst
    · exact ⟨e, .inr ⟨hpc, i, rest, hd, he⟩, rfl⟩
    · nomatch ht
    · rw [hst, hs] at ht
      nomatch ht

theorem stepRaises_of_faulted {s t : State} {kind : BoundsKind} {info : Nat} (h : step s = .next t)
    (ht : t.status = .faulted kind info) : s.StepRaises { kind := kind, info := info } := by
  obtain ⟨e, he, rfl⟩ := step_faulted h (ht ▸ rfl)
  cases ht
  exact he

/-- A step ends Halted only by HALT or by an unknown opcode, and leaves the pc (41_loop.md R105, R106). -/
theorem step_halted {s t : State} {cause : HaltCause} {info : Byte} (h : step s = .next t)
    (ht : t.status = .halted cause info) :
    t.pc = s.pc ∧ s.pc ≤ 253 ∧
      (cause = .haltInstr ∧ info = 0x00#8 ∧ s.mem.read s.pc = s.config.opcodeMap.halt ∨
       cause = .unknownOpcode ∧ info = s.mem.read s.pc ∧ s.mem.read s.pc ∉ s.config.opcodeMap.bytes) := by
  obtain ⟨hs, ⟨-, rfl⟩ | ⟨hpc, ⟨hn, rfl⟩ | ⟨i, rest, u, hd, hu, rfl⟩⟩⟩ := step_next.mp h
  · nomatch ht
  · cases ht
    exact ⟨rfl, hpc, .inr ⟨rfl, rfl, hn⟩⟩
  · rw [State.commitLatches_status] at ht
    rcases (exec_effect hu).status_cases with ⟨e, -, rfl⟩ | ⟨rfl, rfl⟩ | hst
    · nomatch ht
    · cases ht
      exact ⟨rfl, hpc, .inl ⟨rfl, rfl, (List.cons.inj (eq_encode_of_decode hd)).1⟩⟩
    · rw [hst, hs] at ht
      nomatch ht

/-- A running machine always steps: it faults in fetch, soft-halts, or runs what it decodes. -/
theorem step_answers {s : State} (hs : s.status = .running) : ∃ t, step s = .next t := by
  by_cases hpc : 254 ≤ s.pc
  · exact ⟨_, step_next.mpr ⟨hs, .inl ⟨hpc, rfl⟩⟩⟩
  · have hpc : s.pc ≤ 253 := by omega
    cases hd : decode s.config.opcodeMap
        [s.mem.read s.pc, s.mem.read (s.pc + 1), s.mem.read (s.pc + 2)] with
    | ok r =>
      obtain ⟨u, hu⟩ := exec_answers r.1 s
      exact ⟨_, step_next.mpr ⟨hs, .inr ⟨hpc, .inr ⟨_, _, u, hd, hu, rfl⟩⟩⟩⟩
    | error e => exact ⟨_, step_next.mpr ⟨hs, .inr ⟨hpc, .inl ⟨(decode_window_error.mp hd).1, rfl⟩⟩⟩⟩

/-! ## The invariant -/

theorem Effect.mem_wf {s t : State} {i : Instr} (h : Effect s i t) (hs : s.mem.wf) : t.mem.wf := by
  by_cases hi : i.mnemonic = .push ∨ i.mnemonic = .call
  · rcases h.mem_cases hi with hmem | ⟨u, v, -, hmem⟩ <;> rw [hmem]
    · exact hs
    · exact Memory.write_wf hs u.sp.isLt v
  · rw [h.mem_eq (fun hp => hi (.inl hp)) (fun hc => hi (.inr hc))]
    exact hs

/-- The pc moves past an instruction of at most three bytes, or takes a byte (10_state.md section 2). -/
theorem Effect.pc_le {s t : State} {i : Instr} (h : Effect s i t) : t.pc ≤ s.pc + 3 ∨ t.pc ≤ 255 := by
  cases h with
  | call | jmp | jeqTaken | jneTaken => exact .inr (Nat.le_of_lt_succ (BitVec.isLt _))
  | ret => exact .inr (Nat.le_of_lt_succ (BitVec.isLt _))
  | push _ hu => simp [spDec_ok.mp hu]
  | pop _ hu hv => simp [spInc_ok.mp hv, hu]
  | _ => simp

/-- Every raise is one of those 60_exceptions.md R162 lists. -/
theorem Raise.status_wf {s : State} {i : Instr} {e : OutOfBounds} (h : Raise s i e) :
    (Status.faulted e.kind e.info).wf = true := by
  cases h with
  | register h => exact decide_eq_true ⟨h, BitVec.isLt _⟩
  | stackLow | stackHigh => rfl

theorem Effect.status_wf {s t : State} {i : Instr} (h : Effect s i t) (hs : s.status.wf = true) :
    t.status.wf = true := by
  rcases h.status_cases with ⟨e, he, rfl⟩ | ⟨-, rfl⟩ | hst
  · exact he.status_wf
  · rfl
  · rw [hst, hs]

theorem Effect.inv {s t : State} {i : Instr} (h : Effect s i t) (hs : s.Inv) (hpc : s.pc ≤ 253) : t.Inv where
  mem := h.mem_wf hs.mem
  pc := by
    have := h.pc_le
    omega
  status := h.status_wf hs.status
  config := h.config_eq ▸ hs.config

theorem State.Inv.commitLatches {s : State} (h : s.Inv) (w : Latches) : (s.commitLatches w).Inv where
  mem := s.commitLatches_mem w ▸ h.mem
  pc := s.commitLatches_pc w ▸ h.pc
  status := s.commitLatches_status w ▸ h.status
  config := s.commitLatches_config w ▸ h.config

theorem step_inv {s t : State} (hs : s.Inv) (h : step s = .next t) : t.Inv := by
  obtain ⟨-, ⟨-, rfl⟩ | ⟨hpc, ⟨-, rfl⟩ | ⟨i, rest, u, -, hu, rfl⟩⟩⟩ := step_next.mp h
  · exact ⟨hs.mem, hs.pc, decide_eq_true (lt_max_of_lt_right (by decide)), hs.config⟩
  · exact ⟨hs.mem, hs.pc, rfl, hs.config⟩
  · exact ((exec_effect hu).inv hs hpc).commitLatches _

/-- Reset has the invariant, with any memory in canonical form. -/
theorem resetWith_setMem_inv {c : Config} {m : Memory} (hc : c.wf = true) (hm : m.wf) :
    ((State.resetWith c).setMem m).Inv :=
  ⟨hm, Nat.zero_le 256, rfl, hc⟩

/-- A memory fault, where there is one, reports address 256. -/
def State.MemoryFaultAt256 (s : State) : Prop :=
  ∀ n, s.status = .faulted .memory n → n = 256

theorem step_memoryFaultAt256 {s t : State} (hs : s.Inv) (h : step s = .next t) : t.MemoryFaultAt256 := by
  intro n ht
  rcases stepRaises_of_faulted h ht with ⟨-, he⟩ | ⟨-, i, rest, -, he⟩
  · cases he
    exact max_eq_right hs.pc
  · nomatch he

/-! ## The obligations -/

/-- Settles O48: the pc of an executed instruction is at most 253, and every effect then keeps the invariant. -/
theorem stepKeepsInvariant : Obligations.StepKeepsInvariant :=
  fun _ _ => step_inv

/-- Settles O49: placing an image in the empty memory keeps the canonical form. -/
theorem bootHasInvariant : Obligations.BootHasInvariant := by
  refine ⟨resetWith_setMem_inv (by decide) Memory.nil_wf, fun c image t hc h => ?_⟩
  obtain ⟨hlen, rfl⟩ := boot_ok.mp h
  exact resetWith_setMem_inv hc (Memory.place_wf Memory.nil_wf (by omega))

/-- Settles O50: along a run the invariant bounds the pc of every fetch. -/
theorem memoryFaultsReportAddress256 : Obligations.MemoryFaultsReportAddress256 := by
  intro k s t n hs hrun h ht
  have hkeep : ∀ u v : State, u.Inv ∧ u.MemoryFaultAt256 → step u = .next v → v.Inv ∧ v.MemoryFaultAt256 :=
    fun u v hu huv => ⟨step_inv hu.1 huv, step_memoryFaultAt256 hu.1 huv⟩
  have hs256 : s.MemoryFaultAt256 := fun m hm => nomatch hrun.symm.trans hm
  exact (run_induction hkeep ⟨hs, hs256⟩ h).2 n ht

/-- Settles O44: a fault is taken by the state before the step. -/
theorem faultsArePrecise : Obligations.FaultsArePrecise := by
  intro s t h ht
  obtain ⟨e, -, rfl⟩ := step_faulted h ht
  rfl

/-- Settles O45, by what the fetch and the decoded instruction can raise. -/
theorem faultKindsAndTheirRaisers : Obligations.FaultKindsAndTheirRaisers := by
  intro s t n h
  refine ⟨fun ht => ?_, fun ht => ?_, fun ht => ?_⟩
  · rcases stepRaises_of_faulted h ht with ⟨hpc, he⟩ | ⟨-, _, _, -, he⟩ <;> cases he
    exact ⟨hpc, rfl⟩
  · rcases stepRaises_of_faulted h ht with ⟨-, he⟩ | ⟨hpc, i, rest, hd, he⟩ <;> cases he
    next hr hmem => exact ⟨hpc, hr, i, rest, hd, List.mem_map_of_mem hmem⟩
  · rcases stepRaises_of_faulted h ht with ⟨-, he⟩ | ⟨hpc, i, rest, hd, he⟩ <;> cases he
    next hsp hi => exact ⟨hpc, i, rest, hd, .inl ⟨rfl, hsp, hi⟩⟩
    next hi => exact ⟨hpc, i, rest, hd, .inr ⟨rfl, hi⟩⟩

/-- Settles O46: a successful state is Halted(HaltInstr, 0), which leaves only HALT. -/
theorem haltedOnlyByHaltOrUnknownOpcode : Obligations.HaltedOnlyByHaltOrUnknownOpcode := by
  intro s t h
  have hhalt : ∀ info, t.status = .halted .haltInstr info → info = 0x00#8 ∧ t.pc = s.pc ∧ s.pc ≤ 253 ∧
      s.mem.read s.pc = s.config.opcodeMap.halt := by
    intro info ht
    obtain ⟨ht_pc, hpc, ⟨-, hinfo, hop⟩ | ⟨hc, -⟩⟩ := step_halted h ht
    · exact ⟨hinfo, ht_pc, hpc, hop⟩
    · nomatch hc
  refine ⟨hhalt, fun info ht => ?_, fun ht => ?_⟩
  · obtain ⟨ht_pc, hpc, ⟨hc, -⟩ | ⟨-, hinfo, hop⟩⟩ := step_halted h ht
    · nomatch hc
    · exact ⟨hinfo, ht_pc, hpc, hinfo ▸ hop⟩
  · obtain ⟨-, -, -, hop⟩ := hhalt _ (of_decide_eq_true ht)
    exact hop

/-- Settles O17: a running machine steps, a stopped one answers `notRunning`. -/
theorem stepEnabledExactlyWhenRunning : Obligations.StepEnabledExactlyWhenRunning := by
  intro s
  refine ⟨⟨fun ⟨t, ht⟩ => (step_next.mp ht).1, step_answers⟩, fun hs k => ?_⟩
  exact run_succ_of_fault (step_stopped hs)

/-- Settles O14: the decoded instruction answers, and its latches are committed unless it faulted. -/
theorem stepRunsDecodedInstruction : Obligations.StepRunsDecodedInstruction := by
  intro s i rest hs hpc hd
  obtain ⟨t, ht⟩ := exec_answers i s
  exact ⟨t, ht, step_next.mpr ⟨hs, .inr ⟨hpc, .inr ⟨i, rest, t, hd, ht, rfl⟩⟩⟩⟩

/-- Settles O15: the first address above 255 of the window is the larger of the pc and 256. -/
theorem stepFetchFault : Obligations.StepFetchFault := by
  intro s hs hpc
  have hfirst : (if s.pc ≤ 255 then 256 else s.pc) = max s.pc 256 := by
    split <;> omega
  rw [hfirst]
  exact step_next.mpr ⟨hs, .inl ⟨hpc, rfl⟩⟩

/-- Settles O16, by the step's second case. -/
theorem stepUnknownOpcode : Obligations.StepUnknownOpcode :=
  fun _ hs hpc hn => step_next.mpr ⟨hs, .inr ⟨hpc, .inl ⟨hn, rfl⟩⟩⟩

/-- Settles O53: a step that does not fault has fetched a window and commits it. -/
theorem runningStepLatchesItsWindow : Obligations.RunningStepLatchesItsWindow := by
  intro s t h ht
  obtain ⟨-, ⟨-, rfl⟩ | ⟨-, ⟨-, rfl⟩ | ⟨i, rest, u, -, -, rfl⟩⟩⟩ := step_next.mp h
  · nomatch ht
  · rfl
  · rw [State.commitLatches_status] at ht
    rw [State.commitLatches_of_not_faulted _ ht]
    rfl

end Sys2Proof.Machine
end

section
/-! SUPPORT. The rule of each instruction: its encoding, its result with its frame, and its exceptions in their order.
The stack instructions share one push and the two updates of the stack pointer. -/

namespace Sys2Proof.Machine

/-! ## Moving the stack pointer -/

/-- What `spDec` answers when it does not raise. -/
def State.decSp (s : State) : State := s.setSp (BitVec.ofNat 8 (s.sp.toNat - 1))

/-- What `spInc` answers when it does not raise. -/
def State.incSp (s : State) : State := s.setSp (BitVec.ofNat 8 (s.sp.toNat + 1))

theorem spDec_eq {s : State} (h : 1 ≤ s.sp.toNat) : spDec s = .ok s.decSp :=
  spDec_ok.mpr ⟨Nat.ne_of_gt h, rfl⟩

theorem spInc_eq {s : State} (h : s.sp.toNat ≤ 254) : spInc s = .ok s.incSp :=
  spInc_ok.mpr ⟨by omega, rfl⟩

namespace State

variable {s : State}

theorem decSp_sp (s : State) : s.decSp.sp.toNat = s.sp.toNat - 1 := by
  rw [decSp, setSp_sp, BitVec.toNat_ofNat]
  omega

theorem incSp_sp (h : s.sp.toNat ≤ 254) : s.incSp.sp.toNat = s.sp.toNat + 1 := by
  rw [incSp, setSp_sp, BitVec.toNat_ofNat]
  omega

theorem decSp_reg {r : Fin 8} (hr : r ≠ 7) : s.decSp.reg r = s.reg r := by
  rw [decSp, setSp_reg, if_neg hr]

theorem incSp_reg {r : Fin 8} (hr : r ≠ 7) : s.incSp.reg r = s.reg r := by
  rw [incSp, setSp_reg, if_neg hr]

/-- A register operand read after the decrement: R7 reads the new SP (the spec's D20). -/
theorem decSp_reg_operand {a : Byte} (ha : a.toNat < 8) :
    s.decSp.reg ⟨a.toNat, ha⟩ = if a.toNat = 7 then s.decSp.sp else s.reg ⟨a.toNat, ha⟩ := by
  split
  · next h => exact congrArg s.decSp.reg (Fin.ext h)
  · next h => exact decSp_reg fun hr => h (congrArg Fin.val hr)

theorem setReg_reg_same (r : Fin 8) (v : Byte) : (s.setReg r v).reg r = v := by
  rw [setReg_reg, if_pos rfl]

theorem setReg_reg_other {a : Nat} (ha : a < 8) {r : Fin 8} (hr : r.val ≠ a) (v : Byte) :
    (s.setReg ⟨a, ha⟩ v).reg r = s.reg r := by
  rw [setReg_reg, if_neg fun h => hr (congrArg Fin.val h)]

theorem setReg_reg_self (s : State) (r : Fin 8) : s.setReg r (s.reg r) = s := by
  simp [setReg, reg]

/-! ## Pushing a byte -/

/-- Store a byte at the decremented stack pointer: what PUSH and CALL do. -/
def pushByte (s : State) (v : Byte) : State := s.decSp.setMem (s.mem.write s.decSp.sp.toNat v)

theorem pushByte_read_sp (hm : s.mem.wf) (v : Byte) : (s.pushByte v).mem.read s.decSp.sp.toNat = v :=
  Memory.read_write_same hm _ v

theorem pushByte_read_same (hm : s.mem.wf) (v : Byte) : (s.pushByte v).mem.read (s.sp.toNat - 1) = v := by
  rw [← s.decSp_sp, pushByte_read_sp hm]

theorem pushByte_read_other {x : Nat} (hx : x ≠ s.sp.toNat - 1) (v : Byte) :
    (s.pushByte v).mem.read x = s.mem.read x :=
  Memory.read_write_other (s.decSp_sp ▸ hx) s.mem v

end State

section
variable {s : State} {a : Byte}

theorem exec_push (hsp : 1 ≤ s.sp.toNat) (ha : a.toNat < 8) :
    exec (.push a) s = .next ((s.pushByte (s.decSp.reg ⟨a.toNat, ha⟩)).advance 2) :=
  execPush_next.mpr (.inr ⟨Nat.ne_of_gt hsp, .inl ⟨ha, rfl⟩⟩)

theorem exec_call (hsp : 1 ≤ s.sp.toNat) (ha : a.toNat < 8) :
    exec (.call a) s = .next ((s.pushByte (returnAddress s)).setPc (s.decSp.reg ⟨a.toNat, ha⟩).toNat) :=
  execCall_next.mpr (.inr ⟨Nat.ne_of_gt hsp, .inl ⟨ha, rfl⟩⟩)

theorem exec_pop (ha : a.toNat < 8) (hsp : (s.setReg ⟨a.toNat, ha⟩ (s.mem.read s.sp.toNat)).sp.toNat ≤ 254) :
    exec (.pop a) s = .next ((s.setReg ⟨a.toNat, ha⟩ (s.mem.read s.sp.toNat)).incSp.advance 2) :=
  execPop_next.mpr (.inl ⟨ha, .inl ⟨by omega, rfl⟩⟩)

/-- A POP of the byte its register already holds moves SP and the pc alone. -/
theorem exec_pop_same (ha : a.toNat < 8) (htop : s.mem.read s.sp.toNat = s.reg ⟨a.toNat, ha⟩)
    (hsp : s.sp.toNat ≤ 254) : exec (.pop a) s = .next (s.incSp.advance 2) := by
  have hback : s.setReg ⟨a.toNat, ha⟩ (s.mem.read s.sp.toNat) = s := by rw [htop, State.setReg_reg_self]
  rw [exec_pop ha (hback.symm ▸ hsp), hback]

theorem exec_pop_stackHigh (ha : a.toNat < 8)
    (hsp : (s.setReg ⟨a.toNat, ha⟩ (s.mem.read s.sp.toNat)).sp.toNat = 255) :
    exec (.pop a) s = .next (s.takeFault { kind := .stack, info := 255 }) :=
  execPop_next.mpr (.inl ⟨ha, .inr ⟨hsp, rfl⟩⟩)

theorem exec_ret (hsp : s.sp.toNat ≤ 254) :
    exec .ret s = .next (s.incSp.setPc (s.mem.read s.sp.toNat).toNat) :=
  execRet_next.mpr (.inl ⟨by omega, rfl⟩)

/-- The stack pointer after POP's register write: as before for another register, the popped byte for R7. -/
theorem popped_sp_other (ha : a.toNat < 8) (h7 : a.toNat ≠ 7) (v : Byte) : (s.setReg ⟨a.toNat, ha⟩ v).sp = s.sp :=
  State.setReg_reg_other ha (Ne.symm h7) v

theorem popped_sp_r7 (ha : a.toNat < 8) (h7 : a.toNat = 7) (v : Byte) : (s.setReg ⟨a.toNat, ha⟩ v).sp = v := by
  have h : (⟨a.toNat, ha⟩ : Fin 8) = 7 := Fin.ext h7
  rw [h]
  exact State.setReg_reg_same 7 v

/-! ## Jumps and the ALU -/

theorem jump_completes (ha : a.toNat < 8) :
    commit s (jumpTo a s) = .next (s.setPc (s.reg ⟨a.toNat, ha⟩).toNat) :=
  commit_jumpTo_next.mpr (.inl ⟨ha, rfl⟩)

theorem jump_raises (ha : 8 ≤ a.toNat) :
    commit s (jumpTo a s) = .next (s.takeFault { kind := .register, info := a.toNat }) :=
  commit_jumpTo_next.mpr (.inr ⟨ha, rfl⟩)

variable {b : Byte} {f : Byte → Byte → Byte}

/-- ADD and MUL write one register and move on. -/
theorem aluInto_completes (f : Byte → Byte → Byte) (ha : a.toNat < 8) (hb : b.toNat < 8) :
    ∃ t, commit s (aluInto f a b s) = .next t ∧
      t.reg ⟨a.toNat, ha⟩ = f (s.reg ⟨a.toNat, ha⟩) (s.reg ⟨b.toNat, hb⟩) ∧
      t.pc = s.pc + 3 ∧ (∀ r : Fin 8, r.val ≠ a.toNat → t.reg r = s.reg r) ∧
      t.flags = s.flags ∧ t.mem = s.mem ∧ t.status = s.status ∧ t.output = s.output :=
  ⟨_, commit_aluInto_next.mpr (.inl ⟨ha, hb, rfl⟩), State.setReg_reg_same _ _, rfl,
    fun _ hr => State.setReg_reg_other ha hr _, rfl, rfl, rfl, rfl⟩

theorem aluInto_raises_first (ha : 8 ≤ a.toNat) :
    commit s (aluInto f a b s) = .next (s.takeFault { kind := .register, info := a.toNat }) :=
  commit_aluInto_next.mpr (.inr (.inl ⟨ha, rfl⟩))

theorem aluInto_raises_second (ha : a.toNat < 8) (hb : 8 ≤ b.toNat) :
    commit s (aluInto f a b s) = .next (s.takeFault { kind := .register, info := b.toNat }) :=
  commit_aluInto_next.mpr (.inr (.inr ⟨ha, hb, rfl⟩))

theorem aluAdd_toNat (va vb : Byte) : (aluAdd va vb).toNat = (va.toNat + vb.toNat) % 256 := by
  simp [aluAdd]

theorem aluMul_toNat (va vb : Byte) : (aluMul va vb).toNat = (va.toNat * vb.toNat) % 256 := by
  simp [aluMul]

/-- Signed and unsigned products agree in their low 8 bits (40_alu.md R82). -/
theorem aluMul_eq_ofInt (va vb : Byte) : aluMul va vb = BitVec.ofInt 8 (va.toInt * vb.toInt) := by
  have hmul : aluMul va vb = va * vb := BitVec.eq_of_toNat_eq (by rw [aluMul_toNat, BitVec.toNat_mul])
  rw [hmul, BitVec.ofInt_mul, BitVec.ofInt_toInt, BitVec.ofInt_toInt]

end

/-! ## The obligations: ALU -/

/-- Settles O19: ADD is the ALU's sum written into its first register. -/
theorem addRule : Obligations.AddRule := by
  intro s a b
  refine ⟨decode_standard (.add a b), fun ha hb => ?_, aluInto_raises_first, aluInto_raises_second⟩
  obtain ⟨t, ht, hreg, hframe⟩ := aluInto_completes aluAdd ha hb
  exact ⟨t, ht, by rw [hreg, aluAdd_toNat], hframe⟩

/-- Settles O20: MUL is the ALU's product written into its first register. -/
theorem mulRule : Obligations.MulRule := by
  intro s a b
  refine ⟨decode_standard (.mul a b), fun ha hb => ?_, aluInto_raises_first, aluInto_raises_second⟩
  obtain ⟨t, ht, hreg, hpc, hregs, hflags, hmem, hstatus, hout⟩ := aluInto_completes aluMul ha hb
  exact ⟨t, ht, by rw [hreg, aluMul_toNat], hpc, hregs, hflags, hmem, hstatus, hout, by rw [hreg, aluMul_eq_ofInt]⟩

/-- Settles O21: each flag is what it starts from, or its comparison. -/
theorem cmpRule : Obligations.CmpRule := by
  intro s a b
  refine ⟨decode_standard (.cmp a b), fun ha hb => ⟨_, execCmp_next.mpr (.inl ⟨ha, hb, rfl⟩), ?_, ?_, rfl⟩,
    fun ha => execCmp_next.mpr (.inr (.inl ⟨ha, rfl⟩)), fun ha hb => execCmp_next.mpr (.inr (.inr ⟨ha, hb, rfl⟩))⟩
  · intro hmode
    simp [compareFlags_eq, hmode, Flags.beforeCompare]
  · intro hmode
    simp [compareFlags_eq, hmode, Flags.beforeCompare, Flags.none]

/-! ## The obligations: HALT, LDI, PRN -/

/-- Settles O24, by HALT's one next state. -/
theorem haltRule : Obligations.HaltRule :=
  fun _ => ⟨decode_standard .halt, execHalt_next.mpr rfl⟩

/-- Settles O25, by the two ways LDI ends. -/
theorem ldiRule : Obligations.LdiRule := by
  intro s a b
  refine ⟨decode_standard (.ldi a b), fun ha => ?_, fun ha => execLdi_next.mpr (.inr ⟨ha, rfl⟩)⟩
  exact ⟨_, execLdi_next.mpr (.inl ⟨ha, rfl⟩), State.setReg_reg_same _ _, rfl,
    fun _ hr => State.setReg_reg_other ha hr _, rfl, rfl, rfl, rfl⟩

/-- Settles O26, by the two ways PRN ends. -/
theorem prnRule : Obligations.PrnRule :=
  fun _ a => ⟨decode_standard (.prn a), fun ha => execPrn_next.mpr (.inl ⟨ha, rfl⟩),
    fun ha => execPrn_next.mpr (.inr ⟨ha, rfl⟩)⟩

/-! ## The obligations: stack -/

/-- Settles O27: each primitive raises at its end, and moves SP alone otherwise. -/
theorem stackPointerPrimitives : Obligations.StackPointerPrimitives := by
  intro s
  refine ⟨fun h => spDec_error.mpr ⟨h, rfl⟩, fun h => ?_, fun h => spInc_error.mpr ⟨h, rfl⟩, fun h => ?_⟩
  · exact ⟨_, spDec_eq h, s.decSp_sp, fun _ => State.decSp_reg, rfl⟩
  · exact ⟨_, spInc_eq h, State.incSp_sp h, fun _ => State.incSp_reg, rfl⟩

/-- Settles O28: the byte pushed is the register as read after the decrement. -/
theorem pushRule : Obligations.PushRule := by
  intro s a
  refine ⟨decode_standard (.push a), fun ha hsp hm => ⟨_, exec_push hsp ha, s.decSp_sp, ?_,
    fun x hx => State.pushByte_read_other hx _, fun _ => State.decSp_reg, rfl, rfl, rfl, rfl⟩,
    fun hsp => execPush_next.mpr (.inl ⟨hsp, rfl⟩),
    fun hsp ha => execPush_next.mpr (.inr ⟨Nat.ne_of_gt hsp, .inr ⟨ha, rfl⟩⟩)⟩
  exact (State.pushByte_read_same hm _).trans (State.decSp_reg_operand ha)

/-- Settles O29: POP increments what its register write left in SP. -/
theorem popRule : Obligations.PopRule := by
  intro s a
  refine ⟨decode_standard (.pop a), fun ha h7 hsp => ?_, fun h7 hv => ?_,
    fun ha => execPop_next.mpr (.inr ⟨ha, rfl⟩), fun ha hsp => ?_, fun h7 hv => ?_⟩
  · have hu := popped_sp_other (s := s) ha h7 (s.mem.read s.sp.toNat)
    have hle : (s.setReg ⟨a.toNat, ha⟩ (s.mem.read s.sp.toNat)).sp.toNat ≤ 254 :=
      (congrArg BitVec.toNat hu).trans_le hsp
    refine ⟨_, exec_pop ha hle, ?_, (State.incSp_sp hle).trans (by rw [hu]), fun r hr hra => ?_,
      rfl, rfl, rfl, rfl, rfl⟩
    · exact (State.incSp_reg fun h => h7 (congrArg Fin.val h)).trans (State.setReg_reg_same _ _)
    · exact (State.incSp_reg hr).trans (State.setReg_reg_other ha hra _)
  · have ha : a.toNat < 8 := by omega
    have hu := popped_sp_r7 (s := s) ha h7 (s.mem.read s.sp.toNat)
    have hle : (s.setReg ⟨a.toNat, ha⟩ (s.mem.read s.sp.toNat)).sp.toNat ≤ 254 :=
      (congrArg BitVec.toNat hu).trans_le hv
    refine ⟨_, exec_pop ha hle, (State.incSp_sp hle).trans (by rw [hu]), fun r hr => ?_, rfl, rfl, rfl, rfl, rfl⟩
    exact (State.incSp_reg hr).trans (State.setReg_reg_other ha (h7 ▸ Fin.val_ne_of_ne hr) _)
  · have ha' : a.toNat < 8 := by omega
    exact exec_pop_stackHigh ha' ((congrArg BitVec.toNat (popped_sp_other ha' (by omega) _)).trans hsp)
  · have ha : a.toNat < 8 := by omega
    exact exec_pop_stackHigh ha ((congrArg BitVec.toNat (popped_sp_r7 ha h7 _)).trans hv)

/-! ## The obligations: control transfer -/

theorem returnAddress_toNat {s : State} (h : s.pc ≤ 253) : (returnAddress s).toNat = s.pc + 2 := by
  rw [returnAddress, BitVec.toNat_ofNat]
  omega

/-- Settles O32: CALL pushes its return address and jumps through the register as read after the decrement. -/
theorem callRule : Obligations.CallRule := by
  intro s a
  refine ⟨decode_standard (.call a), fun ha hsp hpc hm => ⟨_, exec_call hsp ha, s.decSp_sp, ?_,
    fun x hx => State.pushByte_read_other hx _, fun _ => State.decSp_reg, ?_, rfl, rfl, rfl⟩,
    fun hsp => execCall_next.mpr (.inl ⟨hsp, rfl⟩),
    fun hsp ha => execCall_next.mpr (.inr ⟨Nat.ne_of_gt hsp, .inr ⟨ha, rfl⟩⟩)⟩
  · exact (congrArg BitVec.toNat (State.pushByte_read_same hm _)).trans (returnAddress_toNat hpc)
  · rw [State.setPc_pc, State.decSp_reg_operand ha, apply_ite BitVec.toNat, State.decSp_sp]

/-- Settles O33, by the two ways RET ends. -/
theorem retRule : Obligations.RetRule := by
  intro s
  refine ⟨decode_standard .ret, fun hsp => ?_, fun hsp => execRet_next.mpr (.inr ⟨hsp, rfl⟩)⟩
  exact ⟨_, exec_ret hsp, rfl, State.incSp_sp hsp, fun _ => State.incSp_reg, rfl, rfl, rfl, rfl⟩

/-- Settles O34: JMP is a jump. -/
theorem jmpRule : Obligations.JmpRule :=
  fun _ a => ⟨decode_standard (.jmp a), jump_completes, jump_raises⟩

/-- Settles O35: JEQ is a jump when E is 1. -/
theorem jeqRule : Obligations.JeqRule :=
  fun _ a => ⟨decode_standard (.jeq a), fun he ha => execJeq_next.mpr (.inl ⟨he, jump_completes ha⟩),
    fun he => execJeq_next.mpr (.inr ⟨he, rfl⟩), fun he ha => execJeq_next.mpr (.inl ⟨he, jump_raises ha⟩)⟩

/-- Settles O36: JNE is a jump when E is 0. -/
theorem jneRule : Obligations.JneRule :=
  fun _ a => ⟨decode_standard (.jne a), fun he ha => execJne_next.mpr (.inl ⟨he, jump_completes ha⟩),
    fun he => execJne_next.mpr (.inr ⟨he, rfl⟩), fun he ha => execJne_next.mpr (.inl ⟨he, jump_raises ha⟩)⟩

/-! ## The obligations: pairs of instructions -/

/-- Settles O30: the POP writes back the register's own value, so only SP moves, and it moves back. -/
theorem pushThenPopRestores : Obligations.PushThenPopRestores := by
  intro s a ha hsp hm
  have hdec := s.decSp_sp
  have hle : s.decSp.sp.toNat ≤ 254 := by omega
  refine ⟨_, _, exec_push hsp ha, exec_pop_same ha (State.pushByte_read_sp hm _) hle, fun r => ?_, rfl, ?_,
    fun x hx => State.pushByte_read_other hx _, rfl, rfl, rfl⟩
  · by_cases hr : r = 7
    · subst hr
      exact BitVec.eq_of_toNat_eq ((State.incSp_sp hle).trans (hdec ▸ Nat.sub_add_cancel hsp))
    · exact (State.incSp_reg hr).trans (State.decSp_reg hr)
  · refine (congrArg BitVec.toNat (State.pushByte_read_same hm _)).trans ?_
    rw [State.decSp_reg_operand ha, apply_ite BitVec.toNat, hdec]

/-- Settles O31: the byte at SP after a PUSH is the register's value, and the fetch reads memory. -/
theorem pushedByteIsFetchedNext : Obligations.PushedByteIsFetchedNext := by
  intro s t a w hm h ht ha hw
  obtain ⟨-, rfl⟩ := fetch_ok.mp hw
  have htop : t.mem.read t.sp.toNat = t.reg ⟨a.toNat, ha⟩ := by
    rcases execPush_next.mp h with ⟨-, rfl⟩ | ⟨-, ⟨_, rfl⟩ | ⟨-, rfl⟩⟩
    · nomatch ht
    · exact Memory.read_write_same hm _ _
    · nomatch ht
  exact ⟨fun hpc => hpc ▸ htop, fun hpc => hpc ▸ htop, fun hpc => hpc ▸ htop⟩

/-- Settles O37: RET reads the return address back from where CALL pushed it. -/
theorem callThenRetReturns : Obligations.CallThenRetReturns := by
  intro s a ha hsp hpc hm
  refine ⟨_, exec_call hsp ha, fun v hv hread => ?_⟩
  have hvsp : v.sp.toNat = s.sp.toNat - 1 := (congrArg BitVec.toNat hv).trans s.decSp_sp
  have hle : v.sp.toNat ≤ 254 := by omega
  refine ⟨_, exec_ret hle, ?_, BitVec.eq_of_toNat_eq ?_, rfl⟩
  · have hbyte : v.mem.read v.sp.toNat = returnAddress s := hread.trans (State.pushByte_read_sp hm _)
    rw [State.setPc_pc, hbyte, returnAddress_toNat hpc]
  · rw [State.setPc_sp, State.incSp_sp hle, hvsp, Nat.sub_add_cancel hsp]

end Sys2Proof.Machine
end

section
/-! SUPPORT. Where the pc goes (10_state.md section 2), and what runs do to the flags (40_alu.md section 2). -/

namespace Sys2Proof.Machine

/-! ## The pc -/

/-- The instructions that go on to the one after them move the pc by their length (41_loop.md R104). -/
theorem Effect.pc_advance {s t : State} {i : Instr} (h : Effect s i t) (ht : t.status.isFaulted = false)
    (hi : i.mnemonic ∈ [Mnemonic.ldi, .prn, .add, .mul, .cmp, .push, .pop]) :
    t.pc = s.pc + 1 + i.mnemonic.operandCount := by
  cases h with
  | registerFault | stackLow | stackHigh => nomatch ht
  | push _ hu => simp [spDec_ok.mp hu, Instr.mnemonic, Mnemonic.operandCount]
  | pop _ hu hv => simp [spInc_ok.mp hv, hu, Instr.mnemonic, Mnemonic.operandCount]
  | ldi | prn | add | mul | cmp => rfl
  | _ => simp [Instr.mnemonic] at hi

theorem two_operands_of_mem {mn : Mnemonic} (h : mn ∈ [Mnemonic.ldi, .add, .mul, .cmp]) :
    mn ∈ [Mnemonic.ldi, .prn, .add, .mul, .cmp, .push, .pop] ∧ mn.operandCount = 2 := by
  revert h
  cases mn <;> decide

theorem one_operand_of_mem {mn : Mnemonic} (h : mn ∈ [Mnemonic.prn, .push, .pop]) :
    mn ∈ [Mnemonic.ldi, .prn, .add, .mul, .cmp, .push, .pop] ∧ mn.operandCount = 1 := by
  revert h
  cases mn <;> decide

theorem jump_pc {s t : State} {a : Byte} (h : commit s (jumpTo a s) = .next t) (ht : t.status.isFaulted = false) :
    ∃ ha : a.toNat < 8, t.pc = (s.reg ⟨a.toNat, ha⟩).toNat := by
  rcases commit_jumpTo_next.mp h with ⟨ha, rfl⟩ | ⟨-, rfl⟩
  · exact ⟨ha, rfl⟩
  · nomatch ht

/-- CALL jumps to its register as it leaves it. -/
theorem call_pc {s t : State} {a : Byte} (h : exec (.call a) s = .next t) (ht : t.status.isFaulted = false) :
    ∃ ha : a.toNat < 8, t.pc = (t.reg ⟨a.toNat, ha⟩).toNat := by
  rcases execCall_next.mp h with ⟨-, rfl⟩ | ⟨-, ⟨ha, rfl⟩ | ⟨-, rfl⟩⟩
  · nomatch ht
  · exact ⟨ha, rfl⟩
  · nomatch ht

theorem ret_pc {s t : State} (h : exec .ret s = .next t) (ht : t.status.isFaulted = false) :
    t.pc = (s.mem.read s.sp.toNat).toNat := by
  rcases execRet_next.mp h with ⟨-, rfl⟩ | ⟨-, rfl⟩
  · rfl
  · nomatch ht

/-! ## The flags along a run -/

/-- A step leaves the flags alone, or sets them by one comparison. -/
theorem step_flags_cases {s t : State} (h : step s = .next t) :
    t.flags = s.flags ∨ ∃ va vb, t.flags = compareFlags s.config.cmpFlagUpdate va vb s.flags := by
  obtain ⟨-, ⟨-, rfl⟩ | ⟨-, ⟨-, rfl⟩ | ⟨i, rest, u, -, hu, rfl⟩⟩⟩ := step_next.mp h
  · exact .inl rfl
  · exact .inl rfl
  · rw [State.commitLatches_flags]
    by_cases hi : i.mnemonic = .cmp
    · obtain ⟨a, b, rfl⟩ := mnemonic_eq_cmp.mp hi
      rcases execCmp_next.mp hu with ⟨_, _, rfl⟩ | ⟨-, rfl⟩ | ⟨-, -, rfl⟩
      · exact .inr ⟨_, _, rfl⟩
      · exact .inl rfl
      · exact .inl rfl
    · exact .inl (exec_flags hu hi)

theorem step_config {s t : State} (h : step s = .next t) : t.config = s.config := by
  obtain ⟨-, ⟨-, rfl⟩ | ⟨-, ⟨-, rfl⟩ | ⟨i, rest, u, -, hu, rfl⟩⟩⟩ := step_next.mp h
  · rfl
  · rfl
  · rw [State.commitLatches_config, (exec_effect hu).config_eq]

/-- Every flag that is 1 in `f` is 1 in `f'`. -/
structure Flags.Le (f f' : Flags) : Prop where
  e : f.e = true → f'.e = true
  l : f.l = true → f'.l = true
  g : f.g = true → f'.g = true

theorem Flags.Le.refl (f : Flags) : f.Le f := ⟨id, id, id⟩

theorem Flags.Le.trans {f f' f'' : Flags} (h : f.Le f') (h' : f'.Le f'') : f.Le f'' :=
  ⟨h'.e ∘ h.e, h'.l ∘ h.l, h'.g ∘ h.g⟩

/-- How many flags are 1. -/
def Flags.count (f : Flags) : Nat := f.e.toNat + f.l.toNat + f.g.toNat

theorem le_compareFlags_sticky (va vb : Byte) (f : Flags) : f.Le (compareFlags .sticky va vb f) := by
  rw [compareFlags_eq]
  exact ⟨Bool.or_inl, Bool.or_inl, Bool.or_inl⟩

/-- Exactly one of the three comparisons holds. -/
theorem count_compareFlags_clearFirst (va vb : Byte) (f : Flags) :
    (compareFlags .clearFirst va vb f).count = 1 := by
  simp only [compareFlags]
  split
  · rfl
  · split <;> rfl

/-- Under `sticky` a step clears no flag. -/
theorem step_flags_le {s t : State} (hs : s.config.cmpFlagUpdate = .sticky) (h : step s = .next t) :
    s.flags.Le t.flags := by
  rcases step_flags_cases h with hf | ⟨va, vb, hf⟩ <;> rw [hf]
  · exact .refl _
  · rw [hs]
    exact le_compareFlags_sticky va vb _

/-- Under `clear_first` a step leaves at most one flag set. -/
theorem step_flags_count {s t : State} (hs : s.config.cmpFlagUpdate = .clearFirst) (hc : s.flags.count ≤ 1)
    (h : step s = .next t) : t.flags.count ≤ 1 := by
  rcases step_flags_cases h with hf | ⟨va, vb, hf⟩ <;> rw [hf]
  · exact hc
  · rw [hs, count_compareFlags_clearFirst]

/-! ## The obligations -/

/-- Settles O38: the seven that go on by their length, and the others from what each can do. -/
theorem pcAdvance : Obligations.PcAdvance := by
  intro s t i _ h ht
  have hadv := (exec_effect h).pc_advance ht
  refine ⟨hadv, fun hi => ?_, fun hi => ?_, ?_, ?_, ?_, ?_, ?_, ?_, ?_, ?_⟩
  · obtain ⟨hmem, hcount⟩ := two_operands_of_mem hi
    rw [hadv hmem, hcount]
  · obtain ⟨hmem, hcount⟩ := one_operand_of_mem hi
    rw [hadv hmem, hcount]
  · rintro rfl
    exact ret_pc h ht
  · rintro a rfl
    exact call_pc h ht
  · rintro a rfl
    exact jump_pc h ht
  · rintro a rfl he
    rcases execJeq_next.mp h with ⟨-, hj⟩ | ⟨he', -⟩
    · exact jump_pc hj ht
    · nomatch he.symm.trans he'
  · rintro a rfl he
    rcases execJeq_next.mp h with ⟨he', -⟩ | ⟨-, rfl⟩
    · nomatch he.symm.trans he'
    · rfl
  · rintro a rfl he
    rcases execJne_next.mp h with ⟨-, hj⟩ | ⟨he', -⟩
    · exact jump_pc hj ht
    · nomatch he.symm.trans he'
  · rintro a rfl he
    rcases execJne_next.mp h with ⟨he', -⟩ | ⟨-, rfl⟩
    · nomatch he.symm.trans he'
    · rfl
  · rintro rfl
    rw [execHalt_next.mp h, State.halt_pc]

/-- Settles O22: along a run the configuration stays sticky, and each step only adds flags. -/
theorem stickyFlagsNeverClear : Obligations.StickyFlagsNeverClear := by
  intro k s t hs h
  have hkeep : ∀ u v : State, u.config.cmpFlagUpdate = .sticky ∧ s.flags.Le u.flags → step u = .next v →
      v.config.cmpFlagUpdate = .sticky ∧ s.flags.Le v.flags := by
    rintro u v ⟨hu, hle⟩ huv
    exact ⟨step_config huv ▸ hu, hle.trans (step_flags_le hu huv)⟩
  obtain ⟨-, he, hl, hg⟩ := run_induction hkeep ⟨hs, .refl _⟩ h
  exact ⟨he, hl, hg⟩

/-- Settles O23: along a run the configuration stays `clear_first`, and a comparison sets exactly one flag. -/
theorem clearFirstAtMostOneFlag : Obligations.ClearFirstAtMostOneFlag := by
  intro k s t hs h hc
  have hkeep : ∀ u v : State, u.config.cmpFlagUpdate = .clearFirst ∧ u.flags.count ≤ 1 → step u = .next v →
      v.config.cmpFlagUpdate = .clearFirst ∧ v.flags.count ≤ 1 := by
    rintro u v ⟨hu, hone⟩ huv
    exact ⟨step_config huv ▸ hu, step_flags_count hu hone huv⟩
  exact (run_induction hkeep ⟨hs, hc⟩ h).2

end Sys2Proof.Machine
end

section
/-! SUPPORT. Reading an image text (30_encoding.md R75): the literal of a byte is read back as the byte, and a line
without its spaces and comment is its literal. -/

namespace Sys2Proof.Machine

/-! ## Binary literals -/

/-- A bit as a binary digit. -/
def bitChar (b : Bool) : Char := if b then '1' else '0'

theorem binaryDigit_bitChar (b : Bool) : binaryDigit (bitChar b) = some b.toNat := by
  cases b <;> rfl

theorem binaryValue_append {n v : Nat} {cs ds : List Char} (h : binaryValue n cs = some v) :
    binaryValue n (cs ++ ds) = binaryValue v ds := by
  induction cs generalizing n with
  | nil =>
    cases h
    rfl
  | cons c cs ih =>
    rw [binaryValue] at h
    rw [List.cons_append, binaryValue]
    cases hd : binaryDigit c with
    | none => rw [hd] at h; nomatch h
    | some d => rw [hd] at h; exact ih h

/-- The first `k` bits, most significant first, are the value without its low bits. -/
theorem binaryValue_msbs (v : Byte) {k : Nat} (hk : k ≤ 8) :
    binaryValue 0 ((List.range k).map fun j => bitChar (v.getMsbD j)) = some (v.toNat / 2 ^ (8 - k)) := by
  induction k with
  | zero =>
    rw [Nat.div_eq_of_lt v.isLt]
    rfl
  | succ k ih =>
    have hbit : (v.getMsbD k).toNat = v.toNat / 2 ^ (7 - k) % 2 := by
      rw [BitVec.getMsbD_eq_getLsbD, BitVec.getLsbD, decide_eq_true (Nat.lt_of_succ_le hk), Bool.true_and,
        Nat.toNat_testBit]
    have hhalf : v.toNat / 2 ^ (8 - k) = v.toNat / 2 ^ (7 - k) / 2 := by
      rw [Nat.div_div_eq_div_mul, ← Nat.pow_succ, Nat.succ_eq_add_one, show 7 - k + 1 = 8 - k by omega]
    rw [List.range_succ, List.map_append, binaryValue_append (ih (Nat.le_of_succ_le hk)), List.map_singleton,
      binaryValue, binaryDigit_bitChar]
    simp only [binaryValue, Option.some.injEq]
    rw [hbit, hhalf, Nat.div_add_mod, Nat.add_sub_add_right 7 1 k]

theorem renderByte_eq (v : Byte) : renderByte v = (List.range 8).map fun j => bitChar (v.getMsbD j) := rfl

theorem renderByte_length (v : Byte) : (renderByte v).length = 8 := by
  rw [renderByte_eq, List.length_map, List.length_range]

theorem parseByte_renderByte (v : Byte) : parseByte (renderByte v) = some v := by
  rw [parseByte, if_pos (renderByte_length v), renderByte_eq, binaryValue_msbs v (Nat.le_refl 8)]
  simp

/-! ## Lines -/

/-- A character that a literal may hold: it neither starts a comment nor is white space. -/
def IsLiteralChar (c : Char) : Prop := (c != '#') = true ∧ c.isWhitespace = false

theorem isLiteralChar_bitChar (b : Bool) : IsLiteralChar (bitChar b) := by
  cases b <;> exact ⟨rfl, rfl⟩

theorem isLiteralChar_of_mem_renderByte {v : Byte} {c : Char} (h : c ∈ renderByte v) : IsLiteralChar c := by
  obtain ⟨j, -, rfl⟩ := List.mem_map.mp h
  exact isLiteralChar_bitChar _

/-- The part of a line before its comment. -/
theorem takeWhile_comment {cs : List Char} (h : ∀ c ∈ cs, (c != '#') = true) (comment : Option (List Char)) :
    (cs ++ (comment.map ('#' :: ·)).getD []).takeWhile (· != '#') = cs := by
  rw [List.takeWhile_append_of_pos h]
  cases comment <;> simp

theorem dropWhile_eq_self {p : Char → Bool} {cs : List Char} (h : ∀ c ∈ cs, p c = false) : cs.dropWhile p = cs := by
  cases cs with
  | nil => rfl
  | cons c cs => exact List.dropWhile_cons_of_neg (ne_true_of_eq_false (h c List.mem_cons_self))

/-- A line's literal is what is left of it without spaces and comment. -/
theorem stripLine_eq {lit : List Char} (h : ∀ c ∈ lit, IsLiteralChar c) (n : Nat) (comment : Option (List Char)) :
    stripLine (lit ++ List.replicate n ' ' ++ (comment.map ('#' :: ·)).getD []) = lit := by
  have hspace : ∀ c ∈ List.replicate n ' ', (c != '#') = true ∧ c.isWhitespace = true := by
    intro c hc
    rw [List.eq_of_mem_replicate hc]
    exact ⟨rfl, rfl⟩
  have hbefore : ∀ c ∈ lit ++ List.replicate n ' ', (c != '#') = true := by
    intro c hc
    rcases List.mem_append.mp hc with hc | hc
    · exact (h c hc).1
    · exact (hspace c hc).1
  have hright : ((lit ++ List.replicate n ' ').reverse.dropWhile Char.isWhitespace).reverse = lit := by
    rw [List.reverse_append, List.dropWhile_append_of_pos fun c hc => (hspace c (List.mem_reverse.mp hc)).2]
    rw [dropWhile_eq_self fun c hc => (h c (List.mem_reverse.mp hc)).2, List.reverse_reverse]
  rw [stripLine, takeWhile_comment hbefore]
  cases lit with
  | nil =>
    rw [List.nil_append, List.dropWhile_eq_nil_iff.mpr fun c hc => (hspace c hc).2]
    rfl
  | cons c cs =>
    rw [List.cons_append, List.dropWhile_cons_of_neg (ne_true_of_eq_false (h c List.mem_cons_self).2)]
    exact hright

/-- Parsing goes line by line: a line whose literal is a byte gives it, a line with no literal gives nothing. -/
theorem parseLines_cons {line : List Char} {v : Option Byte} {rest : List (List Char)} {bytes : List Byte}
    {number : Nat}
    (hline : stripLine line = (v.map renderByte).getD []) (hrest : parseLines (number + 1) rest = .ok bytes) :
    parseLines number (line :: rest) = .ok (v.toList ++ bytes) := by
  rw [parseLines, hline]
  cases v with
  | none => exact hrest
  | some v =>
    have hparse := parseByte_renderByte v
    obtain ⟨c, cs, hcs⟩ := List.exists_cons_of_length_eq_add_one (renderByte_length v)
    rw [hcs] at hparse
    simp only [Option.map_some, Option.getD_some, hcs, hparse, hrest]
    rfl

/-- A line of an image text: a literal or nothing, spaces, a comment or nothing. -/
def lineText (line : Option Byte × Nat × Option (List Char)) : List Char :=
  (line.1.map renderByte).getD [] ++ List.replicate line.2.1 ' ' ++ (line.2.2.map ('#' :: ·)).getD []

theorem stripLine_lineText (line : Option Byte × Nat × Option (List Char)) :
    stripLine (lineText line) = (line.1.map renderByte).getD [] := by
  refine stripLine_eq (fun c hc => ?_) _ _
  cases hv : line.1 with
  | none => simp [hv] at hc
  | some v => exact isLiteralChar_of_mem_renderByte (by simpa [hv] using hc)

theorem parseLines_lineText (lines : List (Option Byte × Nat × Option (List Char))) (number : Nat) :
    parseLines number (lines.map lineText) = .ok (lines.filterMap (·.1)) := by
  induction lines generalizing number with
  | nil => rfl
  | cons line lines ih =>
    rw [List.map_cons, parseLines_cons (stripLine_lineText line) (ih (number + 1)), List.filterMap_cons]
    cases line.1 <;> rfl

/-! ## The obligation -/

/-- Settles O7, line by line. -/
theorem imageTextGivesItsBytes : Obligations.ImageTextGivesItsBytes :=
  fun lines => parseLines_lineText lines 1

end Sys2Proof.Machine
end

section
/-! SUPPORT. What the host sees: the parameters at reset, a load error, and the status outputs and flag word. -/

namespace Sys2Proof.Machine

/-- Settles O6: the length check comes before any write. -/
theorem overlongImageIsRefused : Obligations.OverlongImageIsRefused :=
  fun _ _ h => if_pos h

/-- Settles O4, by the fields of the reset state. -/
theorem resetFlagsOutputAndConfig : Obligations.ResetFlagsOutputAndConfig :=
  ⟨rfl, rfl, rfl, rfl⟩

theorem flags_word_bits (e l g : Bool) :
    (Flags.word ⟨e, l, g⟩).getLsbD 0 = e ∧ (Flags.word ⟨e, l, g⟩).getLsbD 1 = g ∧
      (Flags.word ⟨e, l, g⟩).getLsbD 2 = l ∧ (Flags.word ⟨e, l, g⟩).toNat < 8 := by
  revert e l g
  decide

/-- Settles O47: the table of status codes, and the eight flag words. -/
theorem hostViewEncodings : Obligations.HostViewEncodings :=
  ⟨fun _ _ => ⟨rfl, rfl, rfl, rfl, rfl, rfl⟩, fun ⟨e, l, g⟩ => flags_word_bits e l g⟩

end Sys2Proof.Machine
end
